-- ==== Sys2Proof/Word.lean ====
section
/-!
DEFINITION. The bit-vector types of the model (00_scope.md R10, R16): every value of the spec is an unsigned bit vector.
-/

namespace Sys2Proof

/-- Eight bits: one byte lane of a register (R11), the argument of the byte functions (R91 to R94). -/
abbrev Byte := BitVec 8

/-- Thirty-two bits: a column word (R90), an instruction word (R62), the value `W32` writes (R16). -/
abbrev Word32 := BitVec 32

/-- The container of an `XLEN`-bit value. On `XLEN = 32` its bits 63:32 are no state of the machine: the accessors of
Machine/Ops.lean neither read nor keep them. DESIGN CHOICE, log entry 2. -/
abbrev Word := BitVec 64

/-- The 128-bit AES state (R90). -/
abbrev Block := BitVec 128

/-- A register number, 5 bits, naming `x0` to `x31` (R20). -/
abbrev Reg := BitVec 5

/-- The 2-bit byte select of Variant 3 (R67). -/
abbrev ByteSel := BitVec 2

end Sys2Proof
end

