-- ==== Sys2Proof/Machine/Operands.lean ====
section
/-!
DEFINITION. Operand forms: element views of a value, concatenation and the layouts of 00_scope.md R10 to R12 and
40_aes_primitives.md R90.
-/

namespace Sys2Proof.Machine

/-- `byte(v, i) = v[8i + 7 : 8i]`, the source's `v.8[i]` (R11, R16). -/
def byte {n : Nat} (v : BitVec n) (i : Nat) : Byte := v.extractLsb' (8 * i) 8

/-- `word(v, i) = v[32i + 31 : 32i]`, the source's `v.32[i]` (R11, R16). -/
def word {n : Nat} (v : BitVec n) (i : Nat) : Word32 := v.extractLsb' (32 * i) 32

/-- `cat(b3, b2, b1, b0)`: the first argument most significant (R12). -/
def cat4 (b3 b2 b1 b0 : Byte) : Word32 := b3 ++ b2 ++ b1 ++ b0

/-- A 64-bit value from its two 32-bit elements, the first argument most significant (R12). -/
def cat2w (w1 w0 : Word32) : Word := w1 ++ w0

/-- A 128-bit state from its four column words, column 3 most significant (R90). -/
def cat4w (w3 w2 w1 w0 : Word32) : Block := w3 ++ w2 ++ w1 ++ w0

/-- The word whose byte `i` is `f i` (R11, R13). -/
def wordOf (f : Nat → Byte) : Word32 := cat4 (f 3) (f 2) (f 1) (f 0)

/-- The 128-bit state whose byte `b(i)` is `f i` (R90). -/
def blockOf (f : Nat → Byte) : Block :=
  cat4w (wordOf fun i => f (i + 12)) (wordOf fun i => f (i + 8)) (wordOf fun i => f (i + 4)) (wordOf f)

/-- The state in two registers: `b(i) = a.8[i]`, `b(8 + i) = b.8[i]` (R160, R161: `tmp <- cat(b, a)`). -/
def stateOf (a b : Word) : Block := b ++ a

/-- The low half of a state, its bytes 0 to 7: `tmp[63:0]` (R161). -/
def lowHalf (t : Block) : Word := t.extractLsb' 0 64

/-- The high half of a state, its bytes 8 to 15: `tmp[127:64]` (R161). -/
def highHalf (t : Block) : Word := t.extractLsb' 64 64

/-- The four bytes of a word reversed (R124). -/
def rev32 (w : Word32) : Word32 := cat4 (byte w 0) (byte w 1) (byte w 2) (byte w 3)

end Sys2Proof.Machine
end

