-- ==== Sys2Proof/Machine/Aes.lean ====
section
/-!
DEFINITION. The AES primitive functions of 40_aes_primitives.md (R91 to R101). Their contents are the spec's, which marks them
as general knowledge (93_implementation_defined.md G1 to G8); log entry 16.
-/

namespace Sys2Proof.Machine

/-! ### Byte functions -/

/-- An entry of a 256-byte table printed as 16 rows of 16 bytes: row = high nibble, column = low nibble (R91). -/
def tableEntry (rows : List (BitVec 128)) (a : Byte) : Byte :=
  let row := rows.getD (a.toNat / 16) 0#128
  row.extractLsb' (8 * (15 - a.toNat % 16)) 8

/-- The table of R91, one row of the table a line. -/
def sboxRows : List (BitVec 128) :=
  [0x637C777BF26B6FC53001672BFED7AB76#128,
   0xCA82C97DFA5947F0ADD4A2AF9CA472C0#128,
   0xB7FD9326363FF7CC34A5E5F171D83115#128,
   0x04C723C31896059A071280E2EB27B275#128,
   0x09832C1A1B6E5AA0523BD6B329E32F84#128,
   0x53D100ED20FCB15B6ACBBE394A4C58CF#128,
   0xD0EFAAFB434D338545F9027F503C9FA8#128,
   0x51A3408F929D38F5BCB6DA2110FFF3D2#128,
   0xCD0C13EC5F974417C4A77E3D645D1973#128,
   0x60814FDC222A908846EEB814DE5E0BDB#128,
   0xE0323A0A4906245CC2D3AC629195E479#128,
   0xE7C8376D8DD54EA96C56F4EA657AAE08#128,
   0xBA78252E1CA6B4C6E8DD741F4BBD8B8A#128,
   0x703EB5664803F60E613557B986C11D9E#128,
   0xE1F8981169D98E949B1E87E9CE5528DF#128,
   0x8CA1890DBFE6426841992D0FB054BB16#128]

/-- The table of R92, one row of the table a line. -/
def invSboxRows : List (BitVec 128) :=
  [0x52096AD53036A538BF40A39E81F3D7FB#128,
   0x7CE339829B2FFF87348E4344C4DEE9CB#128,
   0x547B9432A6C2233DEE4C950B42FAC34E#128,
   0x082EA16628D924B2765BA2496D8BD125#128,
   0x72F8F66486689816D4A45CCC5D65B692#128,
   0x6C704850FDEDB9DA5E154657A78D9D84#128,
   0x90D8AB008CBCD30AF7E45805B8B34506#128,
   0xD02C1E8FCA3F0F02C1AFBD0301138A6B#128,
   0x3A9111414F67DCEA97F2CFCEF0B4E673#128,
   0x96AC7422E7AD3585E2F937E81C75DF6E#128,
   0x47F11A711D29C5896FB7620EAA18BE1B#128,
   0xFC563E4BC6D279209ADBC0FE78CD5AF4#128,
   0x1FDDA8338807C731B11210592780EC5F#128,
   0x60517FA919B54A0D2DE57A9F93C99CEF#128,
   0xA0E03B4DAE2AF5B0C8EBBB3C83539961#128,
   0x172B047EBA77D626E169146355210C7D#128]

/-- `AESSBox(a)` (R91). -/
def aesSbox (a : Byte) : Byte := tableEntry sboxRows a

/-- `InvAESSBox(a)` (R92). -/
def invAesSbox (a : Byte) : Byte := tableEntry invSboxRows a

/-- `xtime(a)`: multiplication by the polynomial `x` in GF(2^8) (R93). -/
def xtime (a : Byte) : Byte :=
  if a.getLsbD 7 then (a <<< 1) ^^^ 0x1B#8 else a <<< 1

/-- `v` where bit `k` of `c` is 1, and 0 where it is 0. -/
def pickBit (c : Byte) (k : Nat) (v : Byte) : Byte := if c.getLsbD k then v else 0

/-- `GFMUL(a, c)`: "the exclusive-or of `xtime^k(a)` over every `k`" with `c[k] = 1` (R94). -/
def gfmul (a c : Byte) : Byte :=
  let x1 := xtime a
  let x2 := xtime x1
  let x3 := xtime x2
  let x4 := xtime x3
  let x5 := xtime x4
  let x6 := xtime x5
  let x7 := xtime x6
  pickBit c 0 a ^^^ pickBit c 1 x1 ^^^ pickBit c 2 x2 ^^^ pickBit c 3 x3 ^^^
    pickBit c 4 x4 ^^^ pickBit c 5 x5 ^^^ pickBit c 6 x6 ^^^ pickBit c 7 x7

/-! ### Word functions -/

/-- `ROTL32(u, n)`: "equivalently `((u << n) | (u >> (32 - n)))[31:0]`" (R95). -/
def rotl32 (u : Word32) (n : Nat) : Word32 := (u <<< n) ||| (u >>> (32 - n))

/-- `MixCol(w)` (R96). -/
def mixCol (w : Word32) : Word32 :=
  let a0 := byte w 0
  let a1 := byte w 1
  let a2 := byte w 2
  let a3 := byte w 3
  cat4 (gfmul a0 3#8 ^^^ a1 ^^^ a2 ^^^ gfmul a3 2#8)
    (a0 ^^^ a1 ^^^ gfmul a2 2#8 ^^^ gfmul a3 3#8)
    (a0 ^^^ gfmul a1 2#8 ^^^ gfmul a2 3#8 ^^^ a3)
    (gfmul a0 2#8 ^^^ gfmul a1 3#8 ^^^ a2 ^^^ a3)

/-- `InvMixCol(w)` (R97). -/
def invMixCol (w : Word32) : Word32 :=
  let a0 := byte w 0
  let a1 := byte w 1
  let a2 := byte w 2
  let a3 := byte w 3
  cat4 (gfmul a0 11#8 ^^^ gfmul a1 13#8 ^^^ gfmul a2 9#8 ^^^ gfmul a3 14#8)
    (gfmul a0 13#8 ^^^ gfmul a1 9#8 ^^^ gfmul a2 14#8 ^^^ gfmul a3 11#8)
    (gfmul a0 9#8 ^^^ gfmul a1 14#8 ^^^ gfmul a2 11#8 ^^^ gfmul a3 13#8)
    (gfmul a0 14#8 ^^^ gfmul a1 11#8 ^^^ gfmul a2 13#8 ^^^ gfmul a3 9#8)

/-! ### State functions -/

/-- The byte substitution on all 16 bytes of a state (R161). -/
def subBytes (sb : Byte → Byte) (t : Block) : Block := blockOf fun i => sb (byte t i)

/-- The source byte of byte `i = r + 4c` under ShiftRows: `r + 4*((c + r) mod 4)` (R98). -/
def shiftIndex (i : Nat) : Nat := i % 4 + 4 * ((i / 4 + i % 4) % 4)

/-- The source byte of byte `i = r + 4c` under InvShiftRows: `r + 4*((c - r) mod 4)` (R99). -/
def invShiftIndex (i : Nat) : Nat := i % 4 + 4 * ((i / 4 + 4 - i % 4) % 4)

/-- `AESShiftRows(t)` (R98). -/
def shiftRows (t : Block) : Block := blockOf fun i => byte t (shiftIndex i)

/-- `InvAESShiftRows(t)` (R99). -/
def invShiftRows (t : Block) : Block := blockOf fun i => byte t (invShiftIndex i)

/-- `AESMixColumns(t)` (R100). -/
def mixColumns (t : Block) : Block :=
  cat4w (mixCol (word t 3)) (mixCol (word t 2)) (mixCol (word t 1)) (mixCol (word t 0))

/-- `InvAESMixColumns(t)` (R101). -/
def invMixColumns (t : Block) : Block :=
  cat4w (invMixCol (word t 3)) (invMixCol (word t 2)) (invMixCol (word t 1)) (invMixCol (word t 0))

end Sys2Proof.Machine
end

