-- ==== Sys2Proof/Config.lean ====
section
/-!
DEFINITION. What an implementation fixes (00_scope.md R6 to R8; 92_eei_decisions.md, the table of named parameters), and the
two values the spec leaves free.
-/

namespace Sys2Proof

/-- `XLEN` (R6): 32 or 64. -/
inductive Xlen where
  | rv32
  | rv64
  deriving DecidableEq, Repr

/-- The number of bits of a register and of the program counter (R6). -/
def Xlen.bits : Xlen → Nat
  | .rv32 => 32
  | .rv64 => 64

/-- `HI32` (R8, R24): bits 63:32 of `rd` after a Variant 2 or Variant 3 instruction on `XLEN = 64`. -/
inductive Hi32 where
  | zero
  | sext
  | any
  deriving DecidableEq, Repr

/-- `V2_MIX_ROW0` (R8, R124): which operand byte of `saes.v2.mix.*` is row 0 of the AES column. -/
inductive MixRow0 where
  | t0
  | t3
  deriving DecidableEq, Repr

/-- The 22 mnemonics (R4), in the order of the opcode table. -/
inductive Mnemonic where
  | v1Enc
  | v1Dec
  | v2SubEnc
  | v2SubDec
  | v2MixEnc
  | v2MixDec
  | v3Encs
  | v3Encm
  | v3Encsm
  | v3Decs
  | v3Decm
  | v3Decsm
  | v4Sub
  | v4Imix
  | v4EncsmLo
  | v4EncsmHi
  | v4EncsLo
  | v4EncsHi
  | v4DecsmLo
  | v4DecsmHi
  | v4DecsLo
  | v4DecsHi
  deriving DecidableEq, Repr

/-- Every mnemonic, in the order of the opcode table (R4, R69). -/
def Mnemonic.all : List Mnemonic :=
  [.v1Enc, .v1Dec, .v2SubEnc, .v2SubDec, .v2MixEnc, .v2MixDec,
   .v3Encs, .v3Encm, .v3Encsm, .v3Decs, .v3Decm, .v3Decsm,
   .v4Sub, .v4Imix, .v4EncsmLo, .v4EncsmHi, .v4EncsLo, .v4EncsHi,
   .v4DecsmLo, .v4DecsmHi, .v4DecsLo, .v4DecsHi]

/-- The ten `saes.v4.*` mnemonics: "These instructions are for RV64 only." (R2, R4). -/
def Mnemonic.rv64Only : Mnemonic → Bool
  | .v4Sub | .v4Imix | .v4EncsmLo | .v4EncsmHi | .v4EncsLo | .v4EncsHi
  | .v4DecsmLo | .v4DecsmHi | .v4DecsLo | .v4DecsHi => true
  | _ => false

/-- The parameters of an implementation (R6 to R8). `impl` is the set `IMPL`, held as the table-ordered list of its members
(`Config.wf` says so), so that equal sets are equal data. -/
structure Config where
  xlen    : Xlen
  impl    : List Mnemonic
  hi32    : Hi32
  mixRow0 : MixRow0
  deriving DecidableEq, Repr

/-- The default of `IMPL`: every mnemonic the constraint of R7 allows. -/
def Config.allImpl (x : Xlen) : List Mnemonic :=
  Mnemonic.all.filter fun m => x = .rv64 || !m.rv64Only

/-- Every parameter but `XLEN` at the default of R7 and R8 (`XLEN` has none). -/
def Config.standard (x : Xlen) : Config :=
  { xlen := x, impl := Config.allImpl x, hi32 := .zero, mixRow0 := .t0 }

/-- The subset v3.1 of Variant 3 as a value of `IMPL` (R136). -/
def Config.implV31 : List Mnemonic := [.v3Encs, .v3Encsm, .v3Decs, .v3Decsm]

/-- The subset v3.2 of Variant 3 as a value of `IMPL` (R136). -/
def Config.implV32 : List Mnemonic := [.v3Encs, .v3Encm, .v3Decs, .v3Decm]

/-- What a run is started with (R211): `PROGRAM`, `PC_START` and `X_START`, under the parameters `cfg`. -/
structure Launch where
  cfg     : Config
  program : List Word32
  pcStart : Word
  xStart  : List (Reg × Word)
  deriving DecidableEq, Repr

/-- FREE VALUE (R24, U3): the 32-bit `d` that `HI32 = any` draws, "drawn freely at each execution". It is applied to the
count of draws made so far, so each execution of a run has a value of its own; that executions at the same count, in one launch or
in two, draw the same value is the model's choice (DESIGN CHOICE, log entry 4). -/
opaque Config.freeHi32 : Nat → BitVec 32

/-- FREE VALUE (R32, R211, U11): what a register that `X_START` does not name holds at a launch. That it is applied
to the register number alone, so that every launch holds the same value there, is the model's choice (DESIGN CHOICE, log entry
12): the spec allows any value at each launch. -/
opaque Config.freeStart : Reg → Word

end Sys2Proof
end

