-- ==== Sys2Proof/Syntax.lean ====
section
/-!
DEFINITION. The decoded instructions (30_encoding.md R60): one constructor per row of spec/opcode_table.json, in its order.
-/

namespace Sys2Proof

/-- The 22 instructions with their operands in the source's order: destination, first source, second source, byte select
(R60, R78). Every operand ranges over exactly what its field can hold (R22, R67). -/
inductive Instr where
  | v1Enc (rd rs1 : Reg)
  | v1Dec (rd rs1 : Reg)
  | v2SubEnc (rd rs1 rs2 : Reg)
  | v2SubDec (rd rs1 rs2 : Reg)
  | v2MixEnc (rd rs1 rs2 : Reg)
  | v2MixDec (rd rs1 rs2 : Reg)
  | v3Encs (rd rs1 rs2 : Reg) (bs : ByteSel)
  | v3Encm (rd rs1 rs2 : Reg) (bs : ByteSel)
  | v3Encsm (rd rs1 rs2 : Reg) (bs : ByteSel)
  | v3Decs (rd rs1 rs2 : Reg) (bs : ByteSel)
  | v3Decm (rd rs1 rs2 : Reg) (bs : ByteSel)
  | v3Decsm (rd rs1 rs2 : Reg) (bs : ByteSel)
  | v4Sub (rd rs1 : Reg)
  | v4Imix (rd rs1 : Reg)
  | v4EncsmLo (rd rs1 rs2 : Reg)
  | v4EncsmHi (rd rs1 rs2 : Reg)
  | v4EncsLo (rd rs1 rs2 : Reg)
  | v4EncsHi (rd rs1 rs2 : Reg)
  | v4DecsmLo (rd rs1 rs2 : Reg)
  | v4DecsmHi (rd rs1 rs2 : Reg)
  | v4DecsLo (rd rs1 rs2 : Reg)
  | v4DecsHi (rd rs1 rs2 : Reg)
  deriving DecidableEq, Repr

/-- The mnemonic of an instruction (R4). -/
def Instr.mnemonic : Instr → Mnemonic
  | .v1Enc .. => .v1Enc
  | .v1Dec .. => .v1Dec
  | .v2SubEnc .. => .v2SubEnc
  | .v2SubDec .. => .v2SubDec
  | .v2MixEnc .. => .v2MixEnc
  | .v2MixDec .. => .v2MixDec
  | .v3Encs .. => .v3Encs
  | .v3Encm .. => .v3Encm
  | .v3Encsm .. => .v3Encsm
  | .v3Decs .. => .v3Decs
  | .v3Decm .. => .v3Decm
  | .v3Decsm .. => .v3Decsm
  | .v4Sub .. => .v4Sub
  | .v4Imix .. => .v4Imix
  | .v4EncsmLo .. => .v4EncsmLo
  | .v4EncsmHi .. => .v4EncsmHi
  | .v4EncsLo .. => .v4EncsLo
  | .v4EncsHi .. => .v4EncsHi
  | .v4DecsmLo .. => .v4DecsmLo
  | .v4DecsmHi .. => .v4DecsmHi
  | .v4DecsLo .. => .v4DecsLo
  | .v4DecsHi .. => .v4DecsHi

/-- The destination register number of an instruction (R60). -/
def Instr.rd : Instr → Reg
  | .v1Enc rd _ | .v1Dec rd _ | .v4Sub rd _ | .v4Imix rd _ => rd
  | .v2SubEnc rd _ _ | .v2SubDec rd _ _ | .v2MixEnc rd _ _ | .v2MixDec rd _ _ => rd
  | .v3Encs rd _ _ _ | .v3Encm rd _ _ _ | .v3Encsm rd _ _ _ => rd
  | .v3Decs rd _ _ _ | .v3Decm rd _ _ _ | .v3Decsm rd _ _ _ => rd
  | .v4EncsmLo rd _ _ | .v4EncsmHi rd _ _ | .v4EncsLo rd _ _ | .v4EncsHi rd _ _ => rd
  | .v4DecsmLo rd _ _ | .v4DecsmHi rd _ _ | .v4DecsLo rd _ _ | .v4DecsHi rd _ _ => rd

/-- The first source register number of an instruction (R60). -/
def Instr.rs1 : Instr → Reg
  | .v1Enc _ a | .v1Dec _ a | .v4Sub _ a | .v4Imix _ a => a
  | .v2SubEnc _ a _ | .v2SubDec _ a _ | .v2MixEnc _ a _ | .v2MixDec _ a _ => a
  | .v3Encs _ a _ _ | .v3Encm _ a _ _ | .v3Encsm _ a _ _ => a
  | .v3Decs _ a _ _ | .v3Decm _ a _ _ | .v3Decsm _ a _ _ => a
  | .v4EncsmLo _ a _ | .v4EncsmHi _ a _ | .v4EncsLo _ a _ | .v4EncsHi _ a _ => a
  | .v4DecsmLo _ a _ | .v4DecsmHi _ a _ | .v4DecsLo _ a _ | .v4DecsHi _ a _ => a

/-- The second source register number, of the instructions that have one (R60). -/
def Instr.rs2 : Instr → Option Reg
  | .v1Enc .. | .v1Dec .. | .v4Sub .. | .v4Imix .. => none
  | .v2SubEnc _ _ b | .v2SubDec _ _ b | .v2MixEnc _ _ b | .v2MixDec _ _ b => some b
  | .v3Encs _ _ b _ | .v3Encm _ _ b _ | .v3Encsm _ _ b _ => some b
  | .v3Decs _ _ b _ | .v3Decm _ _ b _ | .v3Decsm _ _ b _ => some b
  | .v4EncsmLo _ _ b | .v4EncsmHi _ _ b | .v4EncsLo _ _ b | .v4EncsHi _ _ b => some b
  | .v4DecsmLo _ _ b | .v4DecsmHi _ _ b | .v4DecsLo _ _ b | .v4DecsHi _ _ b => some b

/-- The byte select, of the six Variant 3 instructions (R60, R67). -/
def Instr.bs : Instr → Option ByteSel
  | .v3Encs _ _ _ bs | .v3Encm _ _ _ bs | .v3Encsm _ _ _ bs => some bs
  | .v3Decs _ _ _ bs | .v3Decm _ _ _ bs | .v3Decsm _ _ _ bs => some bs
  | _ => none

end Sys2Proof
end

