-- ==== Sys2Proof/WellFormed.lean ====
section
/-!
DEFINITION. The checks on terms of the syntax, on the parameters and on a launch. Operand ranges need no check: the fields of
`Instr` have exactly the widths of R20 and R67 (R79: a byte select outside 0..3 "cannot be encoded").
-/

namespace Sys2Proof

/-- An instruction exists on a width: the `saes.v4.*` instructions "are for RV64 only" (R2, R4). -/
def Instr.wellFormed (x : Xlen) (i : Instr) : Bool :=
  x = .rv64 || !i.mnemonic.rv64Only

/-- `IMPL` is written in its canonical form: the members in table order, none twice. -/
def Config.implCanonical (c : Config) : Bool :=
  c.impl = Mnemonic.all.filter fun m => c.impl.contains m

/-- The one constraint on `IMPL` (R7): "when `XLEN = 32`, no `saes.v4.*` mnemonic is in `IMPL`". -/
def Config.implAllowed (c : Config) : Bool :=
  c.impl.all fun m => c.xlen = .rv64 || !m.rv64Only

/-- Admissible parameters (R6 to R8). -/
def Config.wf (c : Config) : Bool :=
  c.implCanonical && c.implAllowed

/-- `PC_START` is "a multiple of 4" (R211). -/
def Launch.aligned (l : Launch) : Bool :=
  l.pcStart.toNat % 4 = 0

/-- The text does not cross the address space: `PC_START + 4n <= 2^XLEN` (R211). -/
def Launch.textFits (l : Launch) : Bool :=
  l.pcStart.toNat + 4 * l.program.length ≤ 2 ^ l.cfg.xlen.bits

/-- An admissible launch (R211) under admissible parameters. -/
def Launch.wf (l : Launch) : Bool :=
  l.cfg.wf && l.aligned && l.textFits

end Sys2Proof
end

