-- ==== Sys2Proof/Decode.lean ====
section
/-!
DEFINITION. The provisional encoding (30_encoding.md R62 to R77; decision D10): the decoder, total on words and on bytes,
rejecting by name, and the encoder. Log entry 6: the encoding is the default of the parameter `ENC`.
-/

namespace Sys2Proof

/-- Why a word or a list of bytes is no instruction in scope. -/
inductive DecodeError where
  /-- Fewer than four bytes: no instruction word (R62). -/
  | truncated
  /-- Another major opcode: the word belongs to instructions this spec does not define (R77(b)). -/
  | foreignOpcode
  /-- `opcode = 0001011` with `funct3` not `000` (R77(a)). -/
  | funct3NotZero
  /-- `sel` is 22 to 31 (R73). -/
  | unassignedSel
  /-- Bits 31:30 are not `00` outside Variant 3 (R74). -/
  | topBitsNotZero
  /-- A unary instruction whose `rs2` field is not `00000` (R75). -/
  | rs2NotZero
  deriving DecidableEq, Repr

/-! ### Fields (R63, R64) -/

def opcodeField (w : Word32) : BitVec 7 := w.extractLsb' 0 7
def rdField (w : Word32) : Reg := w.extractLsb' 7 5
def funct3Field (w : Word32) : BitVec 3 := w.extractLsb' 12 3
def rs1Field (w : Word32) : Reg := w.extractLsb' 15 5
def rs2Field (w : Word32) : Reg := w.extractLsb' 20 5
def selField (w : Word32) : BitVec 5 := w.extractLsb' 25 5
def bsField (w : Word32) : ByteSel := w.extractLsb' 30 2

/-- The major opcode custom-0, `0001011` (R63). -/
def majorOpcode : BitVec 7 := 0x0B#7

/-! ### Formats (R63 to R65) -/

/-- Format R (R63): bits 31:30 are `00` (R74). -/
def decodeBinary (w : Word32) (mk : Reg → Reg → Reg → Instr) : Except DecodeError Instr :=
  if bsField w = 0#2 then .ok (mk (rdField w) (rs1Field w) (rs2Field w)) else .error .topBitsNotZero

/-- Format R-unary (R65): bits 31:30 are `00` (R74) and the `rs2` field is `00000` (R75). -/
def decodeUnary (w : Word32) (mk : Reg → Reg → Instr) : Except DecodeError Instr :=
  if bsField w = 0#2 then
    if rs2Field w = 0#5 then .ok (mk (rdField w) (rs1Field w)) else .error .rs2NotZero
  else .error .topBitsNotZero

/-- Format R-bs (R64): bits 31:30 are the byte select (R68). -/
def decodeSelect (w : Word32) (mk : Reg → Reg → Reg → ByteSel → Instr) : Except DecodeError Instr :=
  .ok (mk (rdField w) (rs1Field w) (rs2Field w) (bsField w))

/-- The decoder on 32-bit words (R69, R70): total, every word an instruction or an error by name. -/
def decodeWord (w : Word32) : Except DecodeError Instr :=
  if opcodeField w ≠ majorOpcode then .error .foreignOpcode
  else if funct3Field w ≠ 0#3 then .error .funct3NotZero
  else match (selField w).toNat with
    | 0 => decodeUnary w .v1Enc
    | 1 => decodeUnary w .v1Dec
    | 2 => decodeBinary w .v2SubEnc
    | 3 => decodeBinary w .v2SubDec
    | 4 => decodeBinary w .v2MixEnc
    | 5 => decodeBinary w .v2MixDec
    | 6 => decodeSelect w .v3Encs
    | 7 => decodeSelect w .v3Encm
    | 8 => decodeSelect w .v3Encsm
    | 9 => decodeSelect w .v3Decs
    | 10 => decodeSelect w .v3Decm
    | 11 => decodeSelect w .v3Decsm
    | 12 => decodeUnary w .v4Sub
    | 13 => decodeUnary w .v4Imix
    | 14 => decodeBinary w .v4EncsmLo
    | 15 => decodeBinary w .v4EncsmHi
    | 16 => decodeBinary w .v4EncsLo
    | 17 => decodeBinary w .v4EncsHi
    | 18 => decodeBinary w .v4DecsmLo
    | 19 => decodeBinary w .v4DecsmHi
    | 20 => decodeBinary w .v4DecsLo
    | 21 => decodeBinary w .v4DecsHi
    | _ => .error .unassignedSel

/-- An instruction word from its four bytes: little-endian, "byte at the lowest address is bits 7:0" (R44). -/
def wordOfBytes (b0 b1 b2 b3 : Byte) : Word32 := b3 ++ b2 ++ b1 ++ b0

/-- The decoder on bytes in address order, with the bytes that follow the instruction (R44, R62). -/
def decodeBytes : List Byte → Except DecodeError (Instr × List Byte)
  | b0 :: b1 :: b2 :: b3 :: rest =>
    match decodeWord (wordOfBytes b0 b1 b2 b3) with
    | .ok i => .ok (i, rest)
    | .error e => .error e
  | _ => .error .truncated

/-! ### The encoder -/

/-- The value of `sel`, bits 29:25, for each mnemonic (R69). -/
def Mnemonic.sel : Mnemonic → BitVec 5
  | .v1Enc => 0#5
  | .v1Dec => 1#5
  | .v2SubEnc => 2#5
  | .v2SubDec => 3#5
  | .v2MixEnc => 4#5
  | .v2MixDec => 5#5
  | .v3Encs => 6#5
  | .v3Encm => 7#5
  | .v3Encsm => 8#5
  | .v3Decs => 9#5
  | .v3Decm => 10#5
  | .v3Decsm => 11#5
  | .v4Sub => 12#5
  | .v4Imix => 13#5
  | .v4EncsmLo => 14#5
  | .v4EncsmHi => 15#5
  | .v4EncsLo => 16#5
  | .v4EncsHi => 17#5
  | .v4DecsmLo => 18#5
  | .v4DecsmHi => 19#5
  | .v4DecsLo => 20#5
  | .v4DecsHi => 21#5

/-- The word with the given fields (R63, R64): `bs`, `sel`, `rs2`, `rs1`, `funct3 = 000`, `rd`, opcode. -/
def packFields (bs : ByteSel) (sel : BitVec 5) (rs2 rs1 rd : Reg) : Word32 :=
  bs ++ sel ++ rs2 ++ rs1 ++ 0#3 ++ rd ++ majorOpcode

/-- The word of an instruction (R69): "`bs = 0` outside Variant 3 and `rs2 = 0` for the unary shape". -/
def encode (i : Instr) : Word32 :=
  packFields (i.bs.getD 0#2) i.mnemonic.sel (i.rs2.getD 0#5) i.rs1 i.rd

/-- The four bytes of a word in address order (R44). -/
def bytesOfWord (w : Word32) : List Byte :=
  [w.extractLsb' 0 8, w.extractLsb' 8 8, w.extractLsb' 16 8, w.extractLsb' 24 8]

/-- The four bytes of an instruction in address order (R44). -/
def encodeBytes (i : Instr) : List Byte := bytesOfWord (encode i)

/-! ### The opcode map as data (R69) -/

/-- A row of the opcode map: "word `w` is the instruction when `(w & mask) == match`". -/
structure OpcodeRow where
  mnemonic  : Mnemonic
  matchBits : Word32
  mask      : Word32
  deriving DecidableEq, Repr

def maskUnary : Word32 := 0xFFF0707F#32
def maskBinary : Word32 := 0xFE00707F#32
def maskSelect : Word32 := 0x3E00707F#32

/-- The table of R69, with its `match` and `mask` columns as the spec prints them. -/
def opcodeMap : List OpcodeRow :=
  [⟨.v1Enc, 0x0000000B#32, maskUnary⟩,
   ⟨.v1Dec, 0x0200000B#32, maskUnary⟩,
   ⟨.v2SubEnc, 0x0400000B#32, maskBinary⟩,
   ⟨.v2SubDec, 0x0600000B#32, maskBinary⟩,
   ⟨.v2MixEnc, 0x0800000B#32, maskBinary⟩,
   ⟨.v2MixDec, 0x0A00000B#32, maskBinary⟩,
   ⟨.v3Encs, 0x0C00000B#32, maskSelect⟩,
   ⟨.v3Encm, 0x0E00000B#32, maskSelect⟩,
   ⟨.v3Encsm, 0x1000000B#32, maskSelect⟩,
   ⟨.v3Decs, 0x1200000B#32, maskSelect⟩,
   ⟨.v3Decm, 0x1400000B#32, maskSelect⟩] ++
  [⟨.v3Decsm, 0x1600000B#32, maskSelect⟩,
   ⟨.v4Sub, 0x1800000B#32, maskUnary⟩,
   ⟨.v4Imix, 0x1A00000B#32, maskUnary⟩,
   ⟨.v4EncsmLo, 0x1C00000B#32, maskBinary⟩,
   ⟨.v4EncsmHi, 0x1E00000B#32, maskBinary⟩,
   ⟨.v4EncsLo, 0x2000000B#32, maskBinary⟩,
   ⟨.v4EncsHi, 0x2200000B#32, maskBinary⟩,
   ⟨.v4DecsmLo, 0x2400000B#32, maskBinary⟩,
   ⟨.v4DecsmHi, 0x2600000B#32, maskBinary⟩,
   ⟨.v4DecsLo, 0x2800000B#32, maskBinary⟩,
   ⟨.v4DecsHi, 0x2A00000B#32, maskBinary⟩]

/-- The row of an instruction's mnemonic: the `sel`-th, since "`sel` runs 0 to 21" in the map's order (R69). -/
def Instr.opcodeRow? (i : Instr) : Option OpcodeRow := opcodeMap[i.mnemonic.sel.toNat]?

/-! ### The host's question about a row of the opcode table -/

/-- The 32-bit instruction word whose low `nbits` bits are those of `w` and whose other bits are 0. -/
def tableWord (nbits w : Nat) : Word32 := BitVec.ofNat 32 (w % 2 ^ nbits)

/-- What the decoder reads from the bytes of that word, laid out as the hardware stores them (R44). -/
def decodeTableWord (nbits w : Nat) : Option Instr :=
  match decodeBytes (bytesOfWord (tableWord nbits w)) with
  | .ok (i, _) => some i
  | .error _ => none

end Sys2Proof
end

