-- ==== Sys2Proof/Machine/State.lean ====
section
/-!
DEFINITION. The state of the machine (10_state.md), why a step can stop, and the state after reset.
-/

namespace Sys2Proof.Machine

/-- Why the machine takes no step. Every one of them is SAFE: the machine stops, and no claim about a later state follows. -/
inductive Fault where
  /-- IllegalInstruction, the only exception (R180). Raised by `raiseIllegal`: by a step whose word is unassigned, and by
  every meaning whose mnemonic is not available (R182). Terminal; the record is the pair (address, word) of R180. Safe: "a
  real hart would enter its trap handler and might continue". Log entry 11. -/
  | illegalInstruction (address : Word) (word : Word32)
  /-- The run has ended: `pc = PC_START + 4n` (R212). Raised by `stepWith`. No error: there is no step because the run is
  over, and the registers are its result. Safe: "a real hart does not stop at the end of a code fragment". DESIGN CHOICE, log
  entry 9. -/
  | runEnded
  /-- The hart is stuck: `pc` is neither in the program text nor its end (R42, U9). Raised by `stepWith`. Safe.
  DESIGN CHOICE, log entry 9. -/
  | stuck (address : Word)
  deriving DecidableEq, Repr

/-- Why the model declines to give a meaning. Every one of them is SAFE: no claim follows from a refused run. -/
inductive Refusal where
  /-- An instruction whose meaning is not written yet; no arm of `exec` answers it. Safe. -/
  | notModelled (mnemonic : String)
  /-- A word of another major opcode, an instruction this spec does not define (R77(b), U7). Raised by `stepWith`. Safe. -/
  | foreignOpcode (word : Word32)
  /-- A launch whose `PC_START` is not a multiple of 4 (R211, U10). Raised by `launch`. Safe. -/
  | misalignedStart
  /-- A launch whose text would cross `2^XLEN` (R211, U10). Raised by `launch`. Safe. -/
  | textTooLong
  /-- A launch whose parameters break R7's constraint on `IMPL`, or write `IMPL` out of order. Raised by `launch`. Safe.
  DESIGN CHOICE, log entry 12. -/
  | badConfig
  deriving DecidableEq, Repr

/-- The state: the pair `(x, pc)` of 10_state.md, and beside it, as plain data, what the spec fixes for a whole run (log entry
13) and the two fields of the model's own: the carry of `pc + 4` and the count of free draws. -/
structure State where
  /-- The parameters `XLEN`, `IMPL`, `HI32`, `V2_MIX_ROW0` (R6 to R8). No step changes them. -/
  cfg     : Config
  /-- `PROGRAM`: the program text (R42). No step changes it (R50). -/
  program : List Word32
  /-- `PC_START`: the address of the first word of the text (R42). No step changes it. -/
  pcStart : Word
  /-- `pc`: the address of the instruction being executed (R25). -/
  pc      : Word
  /-- The model's own: the last advance of `pc` passed `2^XLEN - 1` (R27). It is the carry of `pc + 4`, and tells the end of a
  text that fills the whole address space, whose last word is followed by the address of its first (R212, log entry 10). -/
  wrapped : Bool
  /-- `x[0]` to `x[31]` (R20). Slot 0 is neither read nor written: `x[0]` is hardwired to zero (R21). -/
  regs    : Vector Word 32
  /-- The model's own: how many free values `HI32 = any` has drawn (R24, log entry 4). -/
  draws   : Nat
  deriving DecidableEq, Repr

/-- The state right after reset. The spec gives `x[0] = 0` and leaves everything else to the launch (R32, R210). DESIGN CHOICE
(log entries 1, 3, 4, 5, 7, 8, 10): `XLEN = 64` with the defaults of R7 and R8, no program, `pc = PC_START = 0`, every register
0, `pc` not wrapped, no draw made. -/
def State.reset : State where
  cfg     := Config.standard .rv64
  program := []
  pcStart := 0#64
  pc      := 0#64
  wrapped := false
  regs    := Vector.replicate 32 0#64
  draws   := 0

end Sys2Proof.Machine
end

