-- ==== Sys2Proof/Machine/Ops.lean ====
section
/-!
DEFINITION. The named operations over the state: reading and writing a register, the program counter, the program text, the
32-bit write `W32`, the one exception, and the frame every instruction runs in (00_scope.md R16, R17).
-/

namespace Sys2Proof.Machine

/-! ### Width -/

/-- The `XLEN`-bit value a 64-bit container holds: on `XLEN = 32` bits 63:32 do not exist (R6, R20, R25; log entry 2). -/
def fit (x : Xlen) (v : Word) : Word :=
  match x with
  | .rv32 => (v.setWidth 32).setWidth 64
  | .rv64 => v

/-! ### Integer registers -/

/-- `x[r]`: "a read of `x[0]` returns 0" (R16, R21). -/
def State.readReg (s : State) (r : Reg) : Word :=
  if r = 0#5 then 0#64 else fit s.cfg.xlen s.regs[r.toNat]

/-- `x[r] <- v`: "a write to `x[0]` is discarded" (R16, R21). -/
def State.writeReg (s : State) (r : Reg) (v : Word) : State :=
  if r = 0#5 then s else { s with regs := s.regs.set r.toNat (fit s.cfg.xlen v) }

/-- The write of a 32-bit result that is zero-extended on `XLEN = 64`, as Variant 1's is (R24, R110). -/
def State.writeZext (s : State) (rd : Reg) (v : Word32) : State :=
  s.writeReg rd (v.setWidth 64)

/-- One free value drawn: the model's own count (R24; log entry 4). -/
def State.countDraw (s : State) : State := { s with draws := s.draws + 1 }

/-- `W32(rd, v)` (R16, R24): on `XLEN = 64` bits 63:32 by `HI32`. Under `any` they are a free value, a new one at each
execution, whatever `rd` is (log entry 4). -/
def State.writeW32 (s : State) (rd : Reg) (v : Word32) : State :=
  match s.cfg.xlen, s.cfg.hi32 with
  | .rv32, _ => s.writeZext rd v
  | .rv64, .zero => s.writeZext rd v
  | .rv64, .sext => s.writeReg rd (v.signExtend 64)
  | .rv64, .any => (s.writeReg rd (cat2w (Config.freeHi32 s.draws) v)).countDraw

/-! ### Program counter and program text -/

/-- The value of `pc` (R25). -/
def State.pcValue (s : State) : Word := fit s.cfg.xlen s.pc

/-- `(pc + 4) mod 2^XLEN` (R26). -/
def State.nextPc (s : State) : Word := fit s.cfg.xlen (s.pcValue + 4#64)

/-- `pc + 4` passes `2^XLEN - 1` (R27). -/
def State.pcCarries (s : State) : Bool := 2 ^ s.cfg.xlen.bits ≤ s.pcValue.toNat + 4

/-- `pc <- (pc + 4) mod 2^XLEN` (R26), with the carry of that sum kept beside it (log entry 10). -/
def State.advancePc (s : State) : State := { s with pc := s.nextPc, wrapped := s.pcCarries }

/-- The value of `PC_START` (R42). -/
def State.startValue (s : State) : Word := fit s.cfg.xlen s.pcStart

/-- The end of the text, `PC_START + 4n`, as an `XLEN`-bit address (R42, R212; log entry 10). -/
def State.endPc (s : State) : Word :=
  fit s.cfg.xlen (s.startValue + BitVec.ofNat 64 (4 * s.program.length))

/-- `FetchWord(a)`: `w[k]` when `a = PC_START + 4k` with `0 <= k < n`, and nothing for any other `a` (R42). -/
def State.fetchWord (s : State) (a : Nat) : Option Word32 :=
  if s.startValue.toNat ≤ a ∧ (a - s.startValue.toNat) % 4 = 0 then
    s.program[(a - s.startValue.toNat) / 4]?
  else none

/-- The run has ended: `pc = PC_START + 4n` (R212). Where a word of the text stands at that address too, which is so only when
the text fills the whole address space, `pc` is its end when it has wrapped and its first word when it has not (log entry 10). -/
def State.runOver (s : State) : Bool :=
  s.pcValue = s.endPc && (s.wrapped || (s.fetchWord s.pcValue.toNat).isNone)

/-- The byte of the program text at an address: each word of the text is stored little-endian, "byte at the lowest address is
bits 7:0" (R44). -/
def State.fetchByte (s : State) (a : Nat) : Option Byte :=
  if s.startValue.toNat ≤ a then
    (s.program[(a - s.startValue.toNat) / 4]?).map fun w => byte w ((a - s.startValue.toNat) % 4)
  else none

/-! ### The exception -/

/-- `raise IllegalInstruction(w)` (R180, R181): the step ends in a fault that records the address of the faulting instruction
and its word; no register is written and `pc` is not changed. There is no trap entry and no return (R188, R189). -/
def raiseIllegal (w : Word32) (s : State) : Host.Outcome State Fault Refusal :=
  .fault (.illegalInstruction s.pcValue w)

/-- The hardware has the instruction: no `saes.v4.*` on `XLEN = 32` (R76), and the mnemonic is in `IMPL` (R7, R182). -/
def available (c : Config) (m : Mnemonic) : Bool :=
  !(m.rv64Only && c.xlen = .rv32) && c.impl.contains m

/-- The frame of every instruction (R17, R183): IllegalInstruction unless the hardware has it; else the body, then
`pc <- pc + 4`. The word recorded is the one `ENC` gives the instruction; `stepWith` records the word fetched. -/
def perform (i : Instr) (s : State) (body : State → State) : Host.Outcome State Fault Refusal :=
  if available s.cfg i.mnemonic then .next (body s).advancePc else raiseIllegal (encode i) s

end Sys2Proof.Machine
end

