-- ==== Sys2Proof/Machine/Variant1.lean ====
section
/-!
DEFINITION. Variant 1 (41_variant1.md): `saes.v1.enc`, `saes.v1.dec`.
-/

namespace Sys2Proof.Machine

/-- The substitution on the four low bytes of a register, each in its own position (R110, R111). -/
def subLow (sb : Byte → Byte) (s : Word) : Word32 := wordOf fun i => sb (byte s i)

/-- R110: forward S-box on the four low bytes; the result is zero-extended on `XLEN = 64`. -/
def execV1Enc (rd rs1 : Reg) (s : State) : Host.Outcome State Fault Refusal :=
  perform (.v1Enc rd rs1) s fun s => s.writeZext rd (subLow aesSbox (s.readReg rs1))

/-- R111: inverse S-box on the four low bytes; the result is zero-extended on `XLEN = 64`. -/
def execV1Dec (rd rs1 : Reg) (s : State) : Host.Outcome State Fault Refusal :=
  perform (.v1Dec rd rs1) s fun s => s.writeZext rd (subLow invAesSbox (s.readReg rs1))

end Sys2Proof.Machine
end

