-- ==== Sys2Proof/Machine/Variant2.lean ====
section
/-!
DEFINITION. Variant 2 (42_variant2.md): `saes.v2.sub.enc`, `saes.v2.sub.dec`, `saes.v2.mix.enc`, `saes.v2.mix.dec`.
-/

namespace Sys2Proof.Machine

/-- The substitution on bytes 0 and 2 of `a` and bytes 1 and 3 of `b`, each in its own position (R120, R121). -/
def subPair (sb : Byte → Byte) (a b : Word) : Word32 :=
  cat4 (sb (byte b 3)) (sb (byte a 2)) (sb (byte b 1)) (sb (byte a 0))

/-- The column word `cat(t3, t2, t1, t0)` of bytes 0, 1 of `a` and bytes 2, 3 of `b` (R122). -/
def joinPair (a b : Word) : Word32 := cat4 (byte b 3) (byte b 2) (byte a 1) (byte a 0)

/-- The mix of that column, with row 0 where `V2_MIX_ROW0` puts it (R124). -/
def mixPair (row0 : MixRow0) (mix : Word32 → Word32) (a b : Word) : Word32 :=
  match row0 with
  | .t0 => mix (joinPair a b)
  | .t3 => rev32 (mix (rev32 (joinPair a b)))

/-- R120. -/
def execV2SubEnc (rd rs1 rs2 : Reg) (s : State) : Host.Outcome State Fault Refusal :=
  perform (.v2SubEnc rd rs1 rs2) s fun s =>
    s.writeW32 rd (subPair aesSbox (s.readReg rs1) (s.readReg rs2))

/-- R121. -/
def execV2SubDec (rd rs1 rs2 : Reg) (s : State) : Host.Outcome State Fault Refusal :=
  perform (.v2SubDec rd rs1 rs2) s fun s =>
    s.writeW32 rd (subPair invAesSbox (s.readReg rs1) (s.readReg rs2))

/-- R122, R124. -/
def execV2MixEnc (rd rs1 rs2 : Reg) (s : State) : Host.Outcome State Fault Refusal :=
  perform (.v2MixEnc rd rs1 rs2) s fun s =>
    s.writeW32 rd (mixPair s.cfg.mixRow0 mixCol (s.readReg rs1) (s.readReg rs2))

/-- R123, R124. -/
def execV2MixDec (rd rs1 rs2 : Reg) (s : State) : Host.Outcome State Fault Refusal :=
  perform (.v2MixDec rd rs1 rs2) s fun s =>
    s.writeW32 rd (mixPair s.cfg.mixRow0 invMixCol (s.readReg rs1) (s.readReg rs2))

end Sys2Proof.Machine
end

