-- ==== Sys2Proof/Machine/Variant3.lean ====
section
/-!
DEFINITION. Variant 3 (43_variant3.md): `saes.v3.encs`, `encm`, `encsm`, `decs`, `decm`, `decsm`, with the correction of
conflict C2.
-/

namespace Sys2Proof.Machine

/-- `cat(0x00, 0x00, 0x00, xx)` (R130, R133). -/
def plainColumn (x : Byte) : Word32 := cat4 0#8 0#8 0#8 x

/-- The MixColumns image of `xx` in row 0 (R131, R132). -/
def encColumn (x : Byte) : Word32 := cat4 (gfmul x 3#8) x x (gfmul x 2#8)

/-- The InvMixColumns image of `xx` in row 0 (R134, R135). -/
def decColumn (x : Byte) : Word32 := cat4 (gfmul x 11#8) (gfmul x 13#8) (gfmul x 9#8) (gfmul x 14#8)

/-- The shared body of the six (R130 to R135): `ROTL32(u, 8*bs) ^ x[rs2][31:0]`, where `u` is the column of byte `bs` of
`x[rs1]` after the substitution. -/
def selectResult (sb : Byte → Byte) (col : Byte → Word32) (bs : ByteSel) (a b : Word) : Word32 :=
  rotl32 (col (sb (byte a bs.toNat))) (8 * bs.toNat) ^^^ word b 0

/-- R130. -/
def execV3Encs (rd rs1 rs2 : Reg) (bs : ByteSel) (s : State) : Host.Outcome State Fault Refusal :=
  perform (.v3Encs rd rs1 rs2 bs) s fun s =>
    s.writeW32 rd (selectResult aesSbox plainColumn bs (s.readReg rs1) (s.readReg rs2))

/-- R131. -/
def execV3Encm (rd rs1 rs2 : Reg) (bs : ByteSel) (s : State) : Host.Outcome State Fault Refusal :=
  perform (.v3Encm rd rs1 rs2 bs) s fun s =>
    s.writeW32 rd (selectResult id encColumn bs (s.readReg rs1) (s.readReg rs2))

/-- R132. -/
def execV3Encsm (rd rs1 rs2 : Reg) (bs : ByteSel) (s : State) : Host.Outcome State Fault Refusal :=
  perform (.v3Encsm rd rs1 rs2 bs) s fun s =>
    s.writeW32 rd (selectResult aesSbox encColumn bs (s.readReg rs1) (s.readReg rs2))

/-- R133. -/
def execV3Decs (rd rs1 rs2 : Reg) (bs : ByteSel) (s : State) : Host.Outcome State Fault Refusal :=
  perform (.v3Decs rd rs1 rs2 bs) s fun s =>
    s.writeW32 rd (selectResult invAesSbox plainColumn bs (s.readReg rs1) (s.readReg rs2))

/-- R134. -/
def execV3Decm (rd rs1 rs2 : Reg) (bs : ByteSel) (s : State) : Host.Outcome State Fault Refusal :=
  perform (.v3Decm rd rs1 rs2 bs) s fun s =>
    s.writeW32 rd (selectResult id decColumn bs (s.readReg rs1) (s.readReg rs2))

/-- R135. -/
def execV3Decsm (rd rs1 rs2 : Reg) (bs : ByteSel) (s : State) : Host.Outcome State Fault Refusal :=
  perform (.v3Decsm rd rs1 rs2 bs) s fun s =>
    s.writeW32 rd (selectResult invAesSbox decColumn bs (s.readReg rs1) (s.readReg rs2))

end Sys2Proof.Machine
end

