-- ==== Sys2Proof/Machine/Variant4.lean ====
section
/-!
DEFINITION. Variant 4 (44_variant4.md): the ten `saes.v4.*` instructions, RV64 only, with the correction of conflict C3.
-/

namespace Sys2Proof.Machine

/-- `V4Round(a, b, dec, mix)`: the shared body of the eight round instructions (R161). -/
def v4Round (a b : Word) (dec mix : Bool) : Block :=
  let tmp := stateOf a b
  match dec with
  | false =>
    let tmp := shiftRows (subBytes aesSbox tmp)
    if mix then mixColumns tmp else tmp
  | true =>
    let tmp := invShiftRows (subBytes invAesSbox tmp)
    if mix then invMixColumns tmp else tmp

/-- The forward S-box on all eight bytes (R150). -/
def subEight (s : Word) : Word :=
  cat2w (wordOf fun i => aesSbox (byte s (i + 4))) (wordOf fun i => aesSbox (byte s i))

/-- InvMixColumns on the two column words of one register (R151). -/
def imixWords (s : Word) : Word := cat2w (invMixCol (word s 1)) (invMixCol (word s 0))

/-- R150. -/
def execV4Sub (rd rs1 : Reg) (s : State) : Host.Outcome State Fault Refusal :=
  perform (.v4Sub rd rs1) s fun s => s.writeReg rd (subEight (s.readReg rs1))

/-- R151. -/
def execV4Imix (rd rs1 : Reg) (s : State) : Host.Outcome State Fault Refusal :=
  perform (.v4Imix rd rs1) s fun s => s.writeReg rd (imixWords (s.readReg rs1))

/-- R152. -/
def execV4EncsmLo (rd rs1 rs2 : Reg) (s : State) : Host.Outcome State Fault Refusal :=
  perform (.v4EncsmLo rd rs1 rs2) s fun s =>
    s.writeReg rd (lowHalf (v4Round (s.readReg rs1) (s.readReg rs2) false true))

/-- R153. -/
def execV4EncsmHi (rd rs1 rs2 : Reg) (s : State) : Host.Outcome State Fault Refusal :=
  perform (.v4EncsmHi rd rs1 rs2) s fun s =>
    s.writeReg rd (highHalf (v4Round (s.readReg rs1) (s.readReg rs2) false true))

/-- R154. -/
def execV4EncsLo (rd rs1 rs2 : Reg) (s : State) : Host.Outcome State Fault Refusal :=
  perform (.v4EncsLo rd rs1 rs2) s fun s =>
    s.writeReg rd (lowHalf (v4Round (s.readReg rs1) (s.readReg rs2) false false))

/-- R155. -/
def execV4EncsHi (rd rs1 rs2 : Reg) (s : State) : Host.Outcome State Fault Refusal :=
  perform (.v4EncsHi rd rs1 rs2) s fun s =>
    s.writeReg rd (highHalf (v4Round (s.readReg rs1) (s.readReg rs2) false false))

/-- R156. -/
def execV4DecsmLo (rd rs1 rs2 : Reg) (s : State) : Host.Outcome State Fault Refusal :=
  perform (.v4DecsmLo rd rs1 rs2) s fun s =>
    s.writeReg rd (lowHalf (v4Round (s.readReg rs1) (s.readReg rs2) true true))

/-- R157. -/
def execV4DecsmHi (rd rs1 rs2 : Reg) (s : State) : Host.Outcome State Fault Refusal :=
  perform (.v4DecsmHi rd rs1 rs2) s fun s =>
    s.writeReg rd (highHalf (v4Round (s.readReg rs1) (s.readReg rs2) true true))

/-- R158. -/
def execV4DecsLo (rd rs1 rs2 : Reg) (s : State) : Host.Outcome State Fault Refusal :=
  perform (.v4DecsLo rd rs1 rs2) s fun s =>
    s.writeReg rd (lowHalf (v4Round (s.readReg rs1) (s.readReg rs2) true false))

/-- R159. -/
def execV4DecsHi (rd rs1 rs2 : Reg) (s : State) : Host.Outcome State Fault Refusal :=
  perform (.v4DecsHi rd rs1 rs2) s fun s =>
    s.writeReg rd (highHalf (v4Round (s.readReg rs1) (s.readReg rs2) true false))

end Sys2Proof.Machine
end

