-- ==== Sys2Proof/Machine/Dispatch.lean ====
section
/-!
DEFINITION. One arm per instruction, each a direct call of its meaning.
-/

namespace Sys2Proof.Machine

/-- The meaning of a decoded instruction (R17, R183: the body of its rule inside the frame of `perform`). -/
def exec (i : Instr) (s : State) : Host.Outcome State Fault Refusal :=
  match i with
  | .v1Enc rd rs1 => Sys2Proof.Machine.execV1Enc rd rs1 s
  | .v1Dec rd rs1 => Sys2Proof.Machine.execV1Dec rd rs1 s
  | .v2SubEnc rd rs1 rs2 => Sys2Proof.Machine.execV2SubEnc rd rs1 rs2 s
  | .v2SubDec rd rs1 rs2 => Sys2Proof.Machine.execV2SubDec rd rs1 rs2 s
  | .v2MixEnc rd rs1 rs2 => Sys2Proof.Machine.execV2MixEnc rd rs1 rs2 s
  | .v2MixDec rd rs1 rs2 => Sys2Proof.Machine.execV2MixDec rd rs1 rs2 s
  | .v3Encs rd rs1 rs2 bs => Sys2Proof.Machine.execV3Encs rd rs1 rs2 bs s
  | .v3Encm rd rs1 rs2 bs => Sys2Proof.Machine.execV3Encm rd rs1 rs2 bs s
  | .v3Encsm rd rs1 rs2 bs => Sys2Proof.Machine.execV3Encsm rd rs1 rs2 bs s
  | .v3Decs rd rs1 rs2 bs => Sys2Proof.Machine.execV3Decs rd rs1 rs2 bs s
  | .v3Decm rd rs1 rs2 bs => Sys2Proof.Machine.execV3Decm rd rs1 rs2 bs s
  | .v3Decsm rd rs1 rs2 bs => Sys2Proof.Machine.execV3Decsm rd rs1 rs2 bs s
  | .v4Sub rd rs1 => Sys2Proof.Machine.execV4Sub rd rs1 s
  | .v4Imix rd rs1 => Sys2Proof.Machine.execV4Imix rd rs1 s
  | .v4EncsmLo rd rs1 rs2 => Sys2Proof.Machine.execV4EncsmLo rd rs1 rs2 s
  | .v4EncsmHi rd rs1 rs2 => Sys2Proof.Machine.execV4EncsmHi rd rs1 rs2 s
  | .v4EncsLo rd rs1 rs2 => Sys2Proof.Machine.execV4EncsLo rd rs1 rs2 s
  | .v4EncsHi rd rs1 rs2 => Sys2Proof.Machine.execV4EncsHi rd rs1 rs2 s
  | .v4DecsmLo rd rs1 rs2 => Sys2Proof.Machine.execV4DecsmLo rd rs1 rs2 s
  | .v4DecsmHi rd rs1 rs2 => Sys2Proof.Machine.execV4DecsmHi rd rs1 rs2 s
  | .v4DecsLo rd rs1 rs2 => Sys2Proof.Machine.execV4DecsLo rd rs1 rs2 s
  | .v4DecsHi rd rs1 rs2 => Sys2Proof.Machine.execV4DecsHi rd rs1 rs2 s

end Sys2Proof.Machine
end

