-- ==== Sys2Proof/Machine/Cycle.lean ====
section
/-!
DEFINITION. One step of the hart (60_exceptions.md R183), for any decoder `ENC` (30_encoding.md R72), and the placing of a word
where the next step fetches.
-/

namespace Sys2Proof.Machine

/-- A fault raised inside an instruction's frame records the word that was fetched (R180). Under the default `ENC` that word is
the one the frame recorded already. -/
def recordWord (w : Word32) : Host.Outcome State Fault Refusal → Host.Outcome State Fault Refusal
  | .fault (.illegalInstruction a _) => .fault (.illegalInstruction a w)
  | o => o

/-- The step of R183 under the decoder `enc`, its checks in that rule's order (R185): end of run, admissible `pc`, foreign
opcode, decode, then `XLEN` and `IMPL` inside `exec`. The foreign-opcode refusal is `enc`'s own answer (log entry 6). -/
def stepWith (enc : Word32 → Except DecodeError Instr) (s : State) : Host.Outcome State Fault Refusal :=
  if s.runOver then .fault .runEnded
  else match s.fetchWord s.pcValue.toNat with
    | none => .fault (.stuck s.pcValue)
    | some w =>
      match enc w with
      | .error .foreignOpcode => .refused (.foreignOpcode w)
      | .error _ => raiseIllegal w s
      | .ok i => recordWord w (exec i s)

/-- `s` with the word `w` where the next step fetches: in place of the word that stands there, or, where none stands there
or the run is over, as a one-word text at `pc` (log entries 8 and 15). -/
def placeWord (w : Word32) (s : State) : State :=
  if !s.runOver && (s.fetchWord s.pcValue.toNat).isSome then
    { s with program := s.program.set ((s.pcValue.toNat - s.startValue.toNat) / 4) w }
  else
    { s with program := [w], pcStart := s.pcValue }

end Sys2Proof.Machine
end

