-- ==== Sys2Proof/Machine/Step.lean ====
section
/-!
DEFINITION. The step of the machine, and the state whose next step runs a given instruction word.
-/

namespace Sys2Proof.Machine

/-- One step (R183) under the default `ENC`, the table of 30_encoding.md R69 (log entry 6). -/
def step (s : State) : Host.Outcome State Fault Refusal := stepWith decodeWord s

/-- `s` with the instruction whose low `nbits` bits are `w` placed where `step` fetches next (log entry 8). -/
def State.withFetchWord (s : State) (nbits w : Nat) : State := placeWord (tableWord nbits w) s

end Sys2Proof.Machine
end

