-- ==== Sys2Proof/Machine/Launch.lean ====
section
/-!
DEFINITION. The launch of a run (70_reset_and_hazards.md R211).
-/

namespace Sys2Proof.Machine

/-- The value of register `r` at a launch: 0 for `x[0]`, `X_START[r]` where it names `r`, and a free value elsewhere (R32, R211,
U11). That two launches hold the same free value in a register neither names, taken to the `XLEN` of each, is the model's choice
(DESIGN CHOICE, log entry 12): the spec leaves it open. -/
def startReg (l : Launch) (r : Reg) : Word :=
  if r = 0#5 then 0#64 else fit l.cfg.xlen ((l.xStart.lookup r).getD (Config.freeStart r))

/-- The initial state of R211: `pc = PC_START` and not wrapped, the registers of `X_START`, and no draw made. -/
def launchState (l : Launch) : State where
  cfg     := l.cfg
  program := l.program
  pcStart := fit l.cfg.xlen l.pcStart
  pc      := fit l.cfg.xlen l.pcStart
  wrapped := false
  regs    := Vector.ofFn fun k => startReg l (BitVec.ofFin k)
  draws   := 0

/-- "A launch that violates either condition is refused" (R211); so is one whose parameters break R7 (log entry 12). -/
def launch (l : Launch) : Host.Outcome State Fault Refusal :=
  if ¬ l.aligned then .refused .misalignedStart
  else if ¬ l.textFits then .refused .textTooLong
  else if ¬ l.cfg.wf then .refused .badConfig
  else .next (launchState l)

end Sys2Proof.Machine
end

