-- ==== Sys2Proof/Safety.lean ====
section
/-!
DEFINITION. The terms claims are stated in: the invariant of the machine, what an instruction may change, runs and sequences.
-/

namespace Sys2Proof.Machine

/-! ### The invariant -/

/-- What every state of an admissible launch satisfies: admissible parameters (R7); no register, program counter or start
address with a bit above `XLEN` (R20, R25), the unused slot 0 still 0 (R21); a start address and a text as R211 admits them; and
`pc`, counted past `2^XLEN` where it has wrapped, at a word of the text or at its end (R27, R42). -/
structure State.Inv (s : State) : Prop where
  config  : s.cfg.wf = true
  slot0   : s.regs[0] = 0#64
  widths  : ∀ r : Reg, fit s.cfg.xlen s.regs[r.toNat] = s.regs[r.toNat]
  pcWidth : fit s.cfg.xlen s.pc = s.pc
  start   : fit s.cfg.xlen s.pcStart = s.pcStart
  aligned : s.pcStart.toNat % 4 = 0
  fits    : s.pcStart.toNat + 4 * s.program.length ≤ 2 ^ s.cfg.xlen.bits
  inText  : ∃ k ≤ s.program.length,
    s.pcStart.toNat + 4 * k = s.pcValue.toNat + if s.wrapped then 2 ^ s.cfg.xlen.bits else 0

/-! ### What an instruction changes -/

/-- `t` differs from `s` in register `rd`, in the program counter, which is `(pc + 4) mod 2^XLEN` with the carry of that sum
beside it, and in nothing else but the count of free draws (R26, R33, R42; the carry and the count are the model's own, log
entries 10 and 4). -/
structure OnlyReg (s t : State) (rd : Reg) : Prop where
  others  : ∀ r, r ≠ rd → t.readReg r = s.readReg r
  pc      : t.pcValue = s.nextPc
  wrapped : t.wrapped = s.pcCarries
  cfg     : t.cfg = s.cfg
  program : t.program = s.program
  start   : t.pcStart = s.pcStart

/-- `x[rd] <- v; pc <- pc + 4` (R16, R21, R26) and nothing else: the destination holds the `XLEN`-bit value `v`, or, when it is
`x0`, still reads 0. -/
structure Wrote (s t : State) (rd : Reg) (v : Word) : Prop where
  dest  : t.readReg rd = if rd = 0#5 then 0#64 else v
  frame : OnlyReg s t rd
  draws : t.draws = s.draws

/-- What R24 says of bits 63:32 of a destination after the 32-bit result `v` of Variants 2 and 3; on `XLEN = 32` there are no
such bits, and under `HI32 = any` nothing is said of them. -/
def HighBits (c : Config) (v h : Word32) : Prop :=
  match c.xlen, c.hi32 with
  | .rv32, _ => h = 0#32
  | .rv64, .zero => h = 0#32
  | .rv64, .sext => h = if v.getLsbD 31 then 0xFFFFFFFF#32 else 0#32
  | .rv64, .any => True

/-- A free value is drawn (R24): `HI32 = any` on `XLEN = 64`. -/
def Config.drawsHigh (c : Config) : Bool := c.xlen = .rv64 && c.hi32 = .any

/-- `W32(rd, v); pc <- pc + 4` (R16, R24, R26) and nothing else. -/
structure Wrote32 (s t : State) (rd : Reg) (v : Word32) : Prop where
  low   : word (t.readReg rd) 0 = if rd = 0#5 then 0#32 else v
  high  : rd ≠ 0#5 → HighBits s.cfg v (word (t.readReg rd) 1)
  frame : OnlyReg s t rd
  draws : t.draws = if Config.drawsHigh s.cfg then s.draws + 1 else s.draws

/-! ### The state a step fetches from -/

/-- The next step executes the word `w`: the run has not ended, and `w` stands at `pc` (R42, R183). -/
def Fetches (s : State) (w : Word32) : Prop :=
  s.runOver = false ∧ s.fetchWord s.pcValue.toNat = some w

/-- Bytes 0 to 15 of the AES state in two registers: `b(i) = a.8[i]`, `b(8 + i) = b.8[i]` (R160). -/
def stateByte (a b : Word) (i : Nat) : Byte := if i < 8 then byte a i else byte b (i - 8)

/-! ### Runs -/

/-- `k` steps, stopping at the first fault or refusal. -/
def runSteps : Nat → State → Host.Outcome State Fault Refusal
  | 0, s => .next s
  | k + 1, s =>
    match step s with
    | .next t => runSteps k t
    | o => o

/-- A sequence of decoded instructions, one after another, stopping at the first fault or refusal (R48, R72). -/
def execAll : List Instr → State → Host.Outcome State Fault Refusal
  | [], s => .next s
  | i :: is, s =>
    match exec i s with
    | .next t => execAll is t
    | o => o

end Sys2Proof.Machine
end

