-- ==== Sys2Proof/Certificates/Slice0/Obligations.lean ====
section
/-!
DEFINITION. The statements for the provers, from the numbered rules of spec/, and the few words they are said in.
-/

namespace Sys2Proof.Statements

open Sys2Proof.Machine

/-- A 32-bit word in a register, its other bits zero. -/
def inReg (w : Word32) : Word := w.setWidth 64

/-- Row by row, the column of the MixColumns matrix a byte in row 0 is multiplied by (R131). -/
def encCoefficients : List Byte := [2#8, 1#8, 1#8, 3#8]

/-- Row by row, the column of the InvMixColumns matrix a byte in row 0 is multiplied by (R134). -/
def decCoefficients : List Byte := [14#8, 9#8, 13#8, 11#8]

/-- `v` is `acc` with the byte `x`, multiplied by the coefficients, exclusive-ored in from row `b` on, cyclically: the T-table
contribution of `x` in row `b` (R131, R134). -/
def Contribution (coefficients : List Byte) (x : Byte) (b : Nat) (acc : Word) (v : Word32) : Prop :=
  ∀ j < 4, byte v ((b + j) % 4) = byte acc ((b + j) % 4) ^^^ gfmul x (coefficients.getD j 0#8)

/-- `v` is the low word of `acc` with the byte `x` exclusive-ored into its byte `b` (R130, R133). -/
def InPlace (x : Byte) (b : Nat) (acc : Word) (v : Word32) : Prop :=
  ∀ j < 4, byte v j = if j = b then byte acc j ^^^ x else byte acc j

/-- Column `c` of SubBytes and ShiftRows of the state in `a` and `b` (R98, R160). -/
def encryptColumn (a b : Word) (c : Nat) : Word32 :=
  wordOf fun r => aesSbox (stateByte a b (r + 4 * ((c + r) % 4)))

/-- Column `c` of InvSubBytes and InvShiftRows of the state in `a` and `b` (R99, R160). -/
def decryptColumn (a b : Word) (c : Nat) : Word32 :=
  wordOf fun r => invAesSbox (stateByte a b (r + 4 * ((c + 4 - r) % 4)))

/-- The Variant 3 instruction that substitutes, and mixes or not, forward or inverse (R130, R132, R133, R135). -/
def selectInstr (dec mix : Bool) (rd rs1 rs2 : Reg) (bs : ByteSel) : Instr :=
  match dec, mix with
  | false, false => .v3Encs rd rs1 rs2 bs
  | false, true => .v3Encsm rd rs1 rs2 bs
  | true, false => .v3Decs rd rs1 rs2 bs
  | true, true => .v3Decsm rd rs1 rs2 bs

/-- The product of two polynomials over GF(2), bit `k` the coefficient of `x^k` (R94). -/
def polyMul (a b : BitVec 16) : BitVec 16 :=
  (List.range 16).foldl (fun acc k => if b.getLsbD k then acc ^^^ (a <<< k) else acc) 0#16

/-- The affine map of the S-box on the field inverse `i` (R91). -/
def affine (i : Byte) : Byte :=
  i ^^^ i.rotateLeft 1 ^^^ i.rotateLeft 2 ^^^ i.rotateLeft 3 ^^^ i.rotateLeft 4 ^^^ 0x63#8

/-- The bytes of `x[rs1]` an instruction reads (R23). -/
def readsRs1 : Instr → List Nat
  | .v1Enc .. | .v1Dec .. => [0, 1, 2, 3]
  | .v2SubEnc .. | .v2SubDec .. => [0, 2]
  | .v2MixEnc .. | .v2MixDec .. => [0, 1]
  | .v3Encs _ _ _ bs | .v3Encm _ _ _ bs | .v3Encsm _ _ _ bs => [bs.toNat]
  | .v3Decs _ _ _ bs | .v3Decm _ _ _ bs | .v3Decsm _ _ _ bs => [bs.toNat]
  | .v4Sub .. | .v4Imix .. => List.range 8
  | .v4EncsmLo .. | .v4EncsmHi .. | .v4EncsLo .. | .v4EncsHi .. => List.range 8
  | .v4DecsmLo .. | .v4DecsmHi .. | .v4DecsLo .. | .v4DecsHi .. => List.range 8

/-- The bytes of `x[rs2]` an instruction reads (R23). -/
def readsRs2 : Instr → List Nat
  | .v1Enc .. | .v1Dec .. | .v4Sub .. | .v4Imix .. => []
  | .v2SubEnc .. | .v2SubDec .. => [1, 3]
  | .v2MixEnc .. | .v2MixDec .. => [2, 3]
  | .v3Encs .. | .v3Encm .. | .v3Encsm .. => [0, 1, 2, 3]
  | .v3Decs .. | .v3Decm .. | .v3Decsm .. => [0, 1, 2, 3]
  | .v4EncsmLo .. | .v4EncsmHi .. | .v4EncsLo .. | .v4EncsHi .. => List.range 8
  | .v4DecsmLo .. | .v4DecsmHi .. | .v4DecsLo .. | .v4DecsHi .. => List.range 8

/-- Why an instruction is not available on a configuration (R76, R182). -/
def Lacks (c : Config) (m : Mnemonic) : Prop :=
  (m.rv64Only = true ∧ c.xlen = .rv32) ∨ m ∉ c.impl

end Sys2Proof.Statements

open Sys2Proof Sys2Proof.Machine Sys2Proof.Statements

/-! ### Encoding and decoding -/

/-- R69, R70, R44: decoding the word, or the four bytes, of any instruction gives it back, every operand at every value. -/
def Obligations.DecodeInvertsEncode : Prop :=
  ∀ i : Instr, decodeWord (encode i) = .ok i ∧
    ∀ rest, decodeBytes (encodeBytes i ++ rest) = .ok (i, rest)

/-- R70: a word that fits a row of the map decodes to that row's instruction with the fields of the word; a word that fits none
is rejected; at most one row fits. -/
def Obligations.DecodeFollowsTheOpcodeMap : Prop :=
  ∀ w : Word32,
    (∀ row ∈ opcodeMap, w &&& row.mask = row.matchBits →
      ∃ i, decodeWord w = .ok i ∧ i.mnemonic = row.mnemonic ∧
        i.rd = w.extractLsb' 7 5 ∧ i.rs1 = w.extractLsb' 15 5 ∧
        (∀ r, i.rs2 = some r → r = w.extractLsb' 20 5) ∧ ∀ b, i.bs = some b → b = w.extractLsb' 30 2) ∧
    ((∀ row ∈ opcodeMap, w &&& row.mask ≠ row.matchBits) → ∃ e, decodeWord w = .error e) ∧
    ∀ row₁ ∈ opcodeMap, ∀ row₂ ∈ opcodeMap,
      w &&& row₁.mask = row₁.matchBits → w &&& row₂.mask = row₂.matchBits → row₁ = row₂

/-- 95_test_vectors.md section 2.6: words written out in the spec, at least one of each variant, decode to what it says. -/
def Obligations.SpecWordsDecode : Prop :=
  decodeWord 0x0005850B#32 = .ok (.v1Enc 10#5 11#5) ∧
  decodeWord 0x0205850B#32 = .ok (.v1Dec 10#5 11#5) ∧
  decodeWord 0x0AC5850B#32 = .ok (.v2MixDec 10#5 11#5 12#5) ∧
  decodeWord 0x8EC5850B#32 = .ok (.v3Encm 10#5 11#5 12#5 2#2) ∧
  decodeWord 0xD1FF8F8B#32 = .ok (.v3Encsm 31#5 31#5 31#5 3#2) ∧
  decodeWord 0x1A01008B#32 = .ok (.v4Imix 1#5 2#5) ∧
  decodeWord 0x2BFF8F8B#32 = .ok (.v4DecsHi 31#5 31#5 31#5)

/-- R73, R74, R75: the unassigned words inside the opcode's `funct3 = 000` space decode to nothing and raise
IllegalInstruction. -/
def Obligations.UnassignedWordsRaise : Prop :=
  ∀ (s : State) (w : Word32), Fetches s w →
    w.extractLsb' 0 7 = 0b0001011#7 → w.extractLsb' 12 3 = 0b000#3 →
    (22 ≤ (w.extractLsb' 25 5).toNat ∨
      (((w.extractLsb' 25 5).toNat ≤ 5 ∨ 12 ≤ (w.extractLsb' 25 5).toNat ∧ (w.extractLsb' 25 5).toNat ≤ 21) ∧
        w.extractLsb' 30 2 ≠ 0b00#2) ∨
      ((w.extractLsb' 25 5).toNat ∈ [0, 1, 12, 13] ∧ w.extractLsb' 30 2 = 0b00#2 ∧
        w.extractLsb' 20 5 ≠ 0b00000#5)) →
    (∃ e, decodeWord w = .error e) ∧ step s = .fault (.illegalInstruction s.pcValue w)

/-- R77: another `funct3` raises IllegalInstruction; another major opcode is refused, which is no fault; there is no hint: with
`rd = x0` an instruction the hardware has completes as any other, its result discarded. -/
def Obligations.OtherFunct3RaisesOtherOpcodeIsRefused : Prop :=
  ∀ (s : State) (w : Word32), Fetches s w →
    (w.extractLsb' 0 7 = 0b0001011#7 → w.extractLsb' 12 3 ≠ 0b000#3 →
      step s = .fault (.illegalInstruction s.pcValue w)) ∧
    (w.extractLsb' 0 7 ≠ 0b0001011#7 → step s = .refused (.foreignOpcode w)) ∧
    ∀ i, decodeWord w = .ok i → ¬ Lacks s.cfg i.mnemonic → i.rd = 0#5 →
      ∃ t, step s = .next t ∧ (∀ r, t.readReg r = s.readReg r) ∧ t.pcValue = s.nextPc

/-! ### The step -/

/-- R17, R183: when the fetched word decodes to an instruction, the step is `exec` of it, with nothing around it: `exec` itself
writes the register and advances `pc`. -/
def Obligations.StepRunsTheDecodedInstruction : Prop :=
  ∀ (s : State) (w : Word32) (i : Instr), Fetches s w → decodeWord w = .ok i → step s = exec i s

/-- R72 lets `ENC` replace the decoding, and R183 refuses a word whose bits 6:0 are not `0001011` before it decodes and does
not mention `ENC`. That this refusal too is the decoder's own answer, so that a word of any major opcode runs when `enc`
decodes it, is the model's choice (DESIGN CHOICE, log entry 6) and no rule's. Under any decoder the step is `exec` of the
instruction it decodes to, where the hardware has it, and the fault with the word fetched where it has not. -/
def Obligations.AnyDecoderRunsItsInstruction : Prop :=
  ∀ (enc : Word32 → Except DecodeError Instr) (s : State) (w : Word32) (i : Instr), Fetches s w → enc w = .ok i →
    (¬ Lacks s.cfg i.mnemonic → stepWith enc s = exec i s) ∧
    (Lacks s.cfg i.mnemonic → stepWith enc s = .fault (.illegalInstruction s.pcValue w))

/-- R76: a word that decodes to a `saes.v4.*` mnemonic raises IllegalInstruction when `XLEN = 32`, and so does one that decodes
to a mnemonic not in `IMPL`. -/
def Obligations.Rv64OnlyOrUnimplementedWordsRaise : Prop :=
  ∀ (s : State) (w : Word32) (i : Instr), Fetches s w → decodeWord w = .ok i →
    (i.mnemonic.rv64Only = true ∧ s.cfg.xlen = .rv32) ∨ i.mnemonic ∉ s.cfg.impl →
    step s = .fault (.illegalInstruction s.pcValue w)

/-- R182: IllegalInstruction is raised exactly on the three causes of the table, each with the record (address, word): a word of
the major opcode that fits no row of the opcode map; a `saes.v4.*` mnemonic on `XLEN = 32`; a mnemonic not in `IMPL`. A word of
another major opcode is no cause. No operand value, no register number and no byte select enters. -/
def Obligations.IllegalInstructionExactlyForTheListedCauses : Prop :=
  ∀ (s : State) (w : Word32), Fetches s w → ∀ (a : Word) (v : Word32),
    step s = .fault (.illegalInstruction a v) ↔
      (a = s.pcValue ∧ v = w) ∧ w.extractLsb' 0 7 = 0b0001011#7 ∧
        ((∀ row ∈ opcodeMap, w &&& row.mask ≠ row.matchBits) ∨
          ∃ row ∈ opcodeMap, w &&& row.mask = row.matchBits ∧
            ((row.mnemonic.rv64Only = true ∧ s.cfg.xlen = .rv32) ∨ row.mnemonic ∉ s.cfg.impl))

/-- R182, R184: an instruction the hardware has completes for all operands and all register contents and changes no register
but its destination; one it lacks raises IllegalInstruction. The record of that fault is the model's (DEDUCED, log entry 11):
`exec` has no fetched word, and records the word that the default encoding, the table of R69, gives the instruction; under
another `ENC` the step records the word it fetched. `OnlyReg` speaks of the model's carry too (DESIGN CHOICE, log entry 10).
-/
def Obligations.ExecCompletesExactlyWhenImplemented : Prop :=
  ∀ (i : Instr) (s : State),
    (¬ Lacks s.cfg i.mnemonic → ∃ t, exec i s = .next t ∧ OnlyReg s t i.rd) ∧
    (Lacks s.cfg i.mnemonic → exec i s = .fault (.illegalInstruction s.pcValue (encode i)))

/-- R26: every step that goes on ends with `pc <- (pc + 4) mod 2^XLEN`; no instruction's result depends on `pc`; a step that
raises IllegalInstruction records the `pc` it leaves unchanged. Under `HI32 = any` on `XLEN = 64` R24 draws bits 63:32 of a
Variant 2 or 3 result freely at each execution: that the draw too is the same when `pc` is replaced is the model's choice
(DESIGN CHOICE, log entry 4: the free value is applied to the counter of draws alone). -/
def Obligations.PcAdvancesByFour : Prop :=
  (∀ s t : State, step s = .next t → t.pcValue.toNat = (s.pcValue.toNat + 4) % 2 ^ s.cfg.xlen.bits) ∧
  (∀ (i : Instr) (s t : State) (p : Word), exec i s = .next t →
    ∃ u, exec i { s with pc := p } = .next u ∧ u.regs = t.regs ∧
      u.pcValue.toNat = (({ s with pc := p } : State).pcValue.toNat + 4) % 2 ^ s.cfg.xlen.bits) ∧
  ∀ (s : State) (a : Word) (w : Word32), step s = .fault (.illegalInstruction a w) → a = s.pcValue

/-- R21: `x[0]` reads 0 and a write to it is discarded; an instruction with `rd = 0` changes no register, advances `pc` and
raises nothing; one with `rs1 = 0` or `rs2 = 0` uses 0 (`saes.v1.enc rd, x0` writes `0x63636363`). -/
def Obligations.ZeroRegisterIsHardwired : Prop :=
  ∀ s : State, s.readReg 0#5 = 0#64 ∧ (∀ v, s.writeReg 0#5 v = s) ∧
    (∀ i : Instr, ¬ Lacks s.cfg i.mnemonic → i.rd = 0#5 →
      ∃ t, exec i s = .next t ∧ (∀ r, t.readReg r = s.readReg r) ∧ t.pcValue = s.nextPc) ∧
    (∀ rd : Reg, rd ≠ 0#5 → ¬ Lacks s.cfg .v1Enc →
      ∃ t, exec (.v1Enc rd 0#5) s = .next t ∧ t.readReg rd = 0x63636363#64)

/-- R20, R25, R27, R42: the invariant is kept by every step. Where `pc` stands is counted with the model's carry (DESIGN
CHOICE, log entry 10). -/
def Obligations.StepKeepsTheInvariant : Prop :=
  ∀ s t : State, s.Inv → step s = .next t → t.Inv

/-- The model's reset state (its values are the model's choice, log entries 1, 3, 4, 5, 7, 8 and 10) satisfies the invariant. -/
def Obligations.ResetHasTheInvariant : Prop := State.reset.Inv

/-- R211: every launch that is not refused starts in a state that satisfies the invariant. -/
def Obligations.LaunchHasTheInvariant : Prop :=
  ∀ (l : Launch) (s : State), launch l = .next s → s.Inv

/-- R42: the stuck state "cannot be reached by the instructions in scope": no state of the invariant is stuck. -/
def Obligations.InvariantStatesAreNeverStuck : Prop :=
  ∀ s : State, s.Inv → ∀ a, step s ≠ .fault (.stuck a)

/-- R24: the upper half of the 32-bit result of a Variant 1, 2 or 3 instruction, `rd` not `x0`: on `XLEN = 64` zero for
Variant 1; for Variants 2 and 3 zero, the copies of bit 31, or a free value, as `HI32` is `zero`, `sext` or `any`. That the
free value is `Config.freeHi32` at the count `draws`, and that the count advances, is the model's choice (DESIGN CHOICE, log
entry 4: the counter) and no rule's. For `rd = x0` see `ExecCompletesExactlyWhenImplemented` and the statements of the
instructions. -/
def Obligations.UpperHalfOfA32BitResult : Prop :=
  ∀ (i : Instr) (s : State), ¬ Lacks s.cfg i.mnemonic → i.mnemonic.rv64Only = false → i.rd ≠ 0#5 →
    ∃ t, exec i s = .next t ∧
      (i.mnemonic = .v1Enc ∨ i.mnemonic = .v1Dec → t.readReg i.rd = inReg (word (t.readReg i.rd) 0)) ∧
      (i.mnemonic ≠ .v1Enc → i.mnemonic ≠ .v1Dec →
        (s.cfg.xlen = .rv32 → t.readReg i.rd = inReg (word (t.readReg i.rd) 0)) ∧
        (s.cfg.xlen = .rv64 → s.cfg.hi32 = .zero → t.readReg i.rd = (word (t.readReg i.rd) 0).setWidth 64) ∧
        (s.cfg.xlen = .rv64 → s.cfg.hi32 = .sext → t.readReg i.rd = (word (t.readReg i.rd) 0).signExtend 64) ∧
        (s.cfg.xlen = .rv64 → s.cfg.hi32 = .any →
          t.readReg i.rd = cat2w (Config.freeHi32 s.draws) (word (t.readReg i.rd) 0) ∧ t.draws = s.draws + 1))

/-- R42, R50: no step changes the text, its start or the parameters, or any register but the destination of the instruction
that stood at `pc`. What it says of the carry in `OnlyReg` and of the count of draws is the model's choice (DESIGN CHOICE, log
entries 10 and 4). -/
def Obligations.StepChangesOnlyTheDestination : Prop :=
  ∀ s t : State, step s = .next t →
    ∃ w i, Fetches s w ∧ decodeWord w = .ok i ∧ OnlyReg s t i.rd ∧
      t.draws = if Config.drawsHigh s.cfg ∧ i.mnemonic ∈
        [.v2SubEnc, .v2SubDec, .v2MixEnc, .v2MixDec, .v3Encs, .v3Encm, .v3Encsm, .v3Decs, .v3Decm, .v3Decsm]
        then s.draws + 1 else s.draws

/-- R23, R30: a result depends on nothing but the listed bytes of the source registers. Bits 63:32 under `HI32 = any` are free
(log entry 4), so of them nothing is said there. -/
def Obligations.ResultReadsOnlyTheListedBytes : Prop :=
  ∀ (i : Instr) (s s' t t' : State), s.cfg = s'.cfg →
    (∀ k ∈ readsRs1 i, byte (s.readReg i.rs1) k = byte (s'.readReg i.rs1) k) →
    (∀ r, i.rs2 = some r → ∀ k ∈ readsRs2 i, byte (s.readReg r) k = byte (s'.readReg r) k) →
    exec i s = .next t → exec i s' = .next t' →
    word (t.readReg i.rd) 0 = word (t'.readReg i.rd) 0 ∧
      (Config.drawsHigh s.cfg = false → t.readReg i.rd = t'.readReg i.rd)

/-- R42 with R183's order of checks: a word of the text is fetched at `PC_START + 4k`; at the end there is no step because the
run has ended; anywhere else the hart is stuck. That the end is compared as an `XLEN`-bit address, and that an address which is
both the end and a word of the text is the end when `pc` has wrapped and the word when it has not, is the model's choice (DESIGN
CHOICE, log entry 10). -/
def Obligations.StepFetchesByAddress : Prop :=
  ∀ s : State,
    (∀ (k : Nat) (h : k < s.program.length), s.pcValue.toNat = s.startValue.toNat + 4 * k →
      (s.pcValue = s.endPc ∧ s.wrapped = true → step s = .fault .runEnded) ∧
      (¬ (s.pcValue = s.endPc ∧ s.wrapped = true) → Fetches s s.program[k])) ∧
    ((∀ k < s.program.length, s.pcValue.toNat ≠ s.startValue.toNat + 4 * k) →
      (s.pcValue = s.endPc → step s = .fault .runEnded) ∧
      (s.pcValue ≠ s.endPc → step s = .fault (.stuck s.pcValue)))

/-- R44: the bytes of the text are little-endian: byte `j` of a fetched word stands at its address plus `j`, and the decoder on
those four bytes reads that word. -/
def Obligations.TextBytesAreLittleEndian : Prop :=
  ∀ (s : State) (a : Nat) (w : Word32), s.fetchWord a = some w →
    (∀ j < 4, s.fetchByte (a + j) = some (byte w j)) ∧
    ∀ i rest, decodeWord w = .ok i →
      decodeBytes ([byte w 0, byte w 1, byte w 2, byte w 3] ++ rest) = .ok (i, rest)

/-- R212: a run of a text of `n` words that neither faults nor is refused ends after exactly `n` steps, for every text that R211
admits, the one that fills the whole address space included (there the end is told from the start by the model's carry, log
entry 10, which is false at every launch). -/
def Obligations.RunOfNWordsEndsAfterNSteps : Prop :=
  ∀ s : State, s.Inv → s.pc = s.pcStart → s.wrapped = false →
    ∀ (k : Nat) (t : State), runSteps k s = .next t →
      k ≤ s.program.length ∧ t.pcValue = fit s.cfg.xlen (s.pcStart + BitVec.ofNat 64 (4 * k)) ∧
      (∀ h : k < s.program.length, Fetches t s.program[k]) ∧
      (k = s.program.length → step t = .fault .runEnded)

/-- R211: a launch is refused when `PC_START` is no multiple of 4 or the text passes `2^XLEN`; an admissible one (parameters
that break R7 are refused too, the model's choice, log entry 12) starts at `PC_START` with `x[0] = 0` and the registers of
`X_START`; `pc` has not wrapped there (the model's carry, log entry 10). -/
def Obligations.LaunchStartsOrRefuses : Prop :=
  ∀ l : Launch,
    (l.pcStart.toNat % 4 ≠ 0 ∨ 2 ^ l.cfg.xlen.bits < l.pcStart.toNat + 4 * l.program.length →
      ∃ r, launch l = .refused r) ∧
    (l.pcStart.toNat % 4 = 0 → l.pcStart.toNat + 4 * l.program.length ≤ 2 ^ l.cfg.xlen.bits → l.cfg.wf = true →
      ∃ s, launch l = .next s ∧ s.cfg = l.cfg ∧ s.program = l.program ∧
        s.pcValue = fit l.cfg.xlen l.pcStart ∧ s.wrapped = false ∧ s.startValue = fit l.cfg.xlen l.pcStart ∧
        s.readReg 0#5 = 0#64 ∧
        ∀ r v, r ≠ 0#5 → l.xStart.lookup r = some v → s.readReg r = fit l.cfg.xlen v)

/-- R32: after reset `x[0]` is 0. Everything else here is the model's choice: the other registers 0 (log entry 7), `pc` and
`PC_START` 0 and no program (log entry 8), so that the first step finds the run ended, and `pc` not wrapped (log entry 10). -/
def Obligations.ResetValues : Prop :=
  State.reset.readReg 0#5 = 0#64 ∧ (∀ r, State.reset.readReg r = 0#64) ∧ State.reset.pcValue = 0#64 ∧
    State.reset.startValue = 0#64 ∧ State.reset.program = [] ∧ State.reset.wrapped = false ∧ step State.reset = .fault .runEnded

/-! ### Variant 1 -/

/-- R110. `Wrote` speaks of the model's carry and count of draws too (DESIGN CHOICE, log entries 10 and 4). -/
def Obligations.V1EncSubstitutesTheLowBytes : Prop :=
  ∀ (rd rs1 : Reg) (s : State), ¬ Lacks s.cfg .v1Enc →
    ∃ t, exec (.v1Enc rd rs1) s = .next t ∧
      Wrote s t rd ((cat4 (aesSbox (byte (s.readReg rs1) 3)) (aesSbox (byte (s.readReg rs1) 2))
        (aesSbox (byte (s.readReg rs1) 1)) (aesSbox (byte (s.readReg rs1) 0))).setWidth 64)

/-- R111. `Wrote` speaks of the model's carry and count of draws too (DESIGN CHOICE, log entries 10 and 4). -/
def Obligations.V1DecSubstitutesTheLowBytes : Prop :=
  ∀ (rd rs1 : Reg) (s : State), ¬ Lacks s.cfg .v1Dec →
    ∃ t, exec (.v1Dec rd rs1) s = .next t ∧
      Wrote s t rd ((cat4 (invAesSbox (byte (s.readReg rs1) 3)) (invAesSbox (byte (s.readReg rs1) 2))
        (invAesSbox (byte (s.readReg rs1) 1)) (invAesSbox (byte (s.readReg rs1) 0))).setWidth 64)

/-- R111: each of the two undoes the other on the low 32 bits; "on `XLEN = 64` the round trip returns `zext_64(s[31:0])`". -/
def Obligations.V1DecAndV1EncUndoEachOther : Prop :=
  ∀ (rd rs1 rd' : Reg) (s t u : State), rd ≠ 0#5 → rd' ≠ 0#5 →
    (exec (.v1Enc rd rs1) s = .next t ∧ exec (.v1Dec rd' rd) t = .next u ∨
      exec (.v1Dec rd rs1) s = .next t ∧ exec (.v1Enc rd' rd) t = .next u) →
    u.readReg rd' = inReg (word (s.readReg rs1) 0)

/-! ### Variant 2 -/

/-- R120. `Wrote32` speaks of the model's carry and count of draws too (DESIGN CHOICE, log entries 10 and 4). -/
def Obligations.V2SubEncSubstitutesThePair : Prop :=
  ∀ (rd rs1 rs2 : Reg) (s : State), ¬ Lacks s.cfg .v2SubEnc →
    ∃ t, exec (.v2SubEnc rd rs1 rs2) s = .next t ∧
      Wrote32 s t rd (cat4 (aesSbox (byte (s.readReg rs2) 3)) (aesSbox (byte (s.readReg rs1) 2))
        (aesSbox (byte (s.readReg rs2) 1)) (aesSbox (byte (s.readReg rs1) 0)))

/-- R121. `Wrote32` speaks of the model's carry and count of draws too (DESIGN CHOICE, log entries 10 and 4). -/
def Obligations.V2SubDecSubstitutesThePair : Prop :=
  ∀ (rd rs1 rs2 : Reg) (s : State), ¬ Lacks s.cfg .v2SubDec →
    ∃ t, exec (.v2SubDec rd rs1 rs2) s = .next t ∧
      Wrote32 s t rd (cat4 (invAesSbox (byte (s.readReg rs2) 3)) (invAesSbox (byte (s.readReg rs1) 2))
        (invAesSbox (byte (s.readReg rs2) 1)) (invAesSbox (byte (s.readReg rs1) 0)))

/-- R122, R124. `Wrote32` speaks of the model's carry and count of draws too (DESIGN CHOICE, log entries 10 and 4). -/
def Obligations.V2MixEncMixesTheColumn : Prop :=
  ∀ (rd rs1 rs2 : Reg) (s : State), ¬ Lacks s.cfg .v2MixEnc →
    ∃ t v, exec (.v2MixEnc rd rs1 rs2) s = .next t ∧ Wrote32 s t rd v ∧
      (s.cfg.mixRow0 = .t0 → v = mixCol (cat4 (byte (s.readReg rs2) 3) (byte (s.readReg rs2) 2)
        (byte (s.readReg rs1) 1) (byte (s.readReg rs1) 0))) ∧
      (s.cfg.mixRow0 = .t3 → rev32 v = mixCol (cat4 (byte (s.readReg rs1) 0) (byte (s.readReg rs1) 1)
        (byte (s.readReg rs2) 2) (byte (s.readReg rs2) 3)))

/-- R123, R124. `Wrote32` speaks of the model's carry and count of draws too (DESIGN CHOICE, log entries 10 and 4). -/
def Obligations.V2MixDecMixesTheColumn : Prop :=
  ∀ (rd rs1 rs2 : Reg) (s : State), ¬ Lacks s.cfg .v2MixDec →
    ∃ t v, exec (.v2MixDec rd rs1 rs2) s = .next t ∧ Wrote32 s t rd v ∧
      (s.cfg.mixRow0 = .t0 → v = invMixCol (cat4 (byte (s.readReg rs2) 3) (byte (s.readReg rs2) 2)
        (byte (s.readReg rs1) 1) (byte (s.readReg rs1) 0))) ∧
      (s.cfg.mixRow0 = .t3 → rev32 v = invMixCol (cat4 (byte (s.readReg rs1) 0) (byte (s.readReg rs1) 1)
        (byte (s.readReg rs2) 2) (byte (s.readReg rs2) 3)))

/-- R124, 95_test_vectors.md section 5.3: a Variant 2 result for one reading of the row order is the byte reversal of the result
for the other on byte-reversed, exchanged operands. -/
def Obligations.V2IsSymmetricUnderByteReversal : Prop :=
  ∀ a b : Word,
    (∀ sb : Byte → Byte, rev32 (subPair sb a b) = subPair sb (inReg (rev32 (word b 0))) (inReg (rev32 (word a 0)))) ∧
    ∀ mix : Word32 → Word32,
      rev32 (mixPair .t0 mix a b) = mixPair .t3 mix (inReg (rev32 (word b 0))) (inReg (rev32 (word a 0)))

/-! ### Variant 3 -/

/-- R130. `Wrote32` speaks of the model's carry and count of draws too (DESIGN CHOICE, log entries 10 and 4). -/
def Obligations.V3EncsSubstitutesInPlace : Prop :=
  ∀ (rd rs1 rs2 : Reg) (bs : ByteSel) (s : State), ¬ Lacks s.cfg .v3Encs →
    ∃ t v, exec (.v3Encs rd rs1 rs2 bs) s = .next t ∧ Wrote32 s t rd v ∧
      InPlace (aesSbox (byte (s.readReg rs1) bs.toNat)) bs.toNat (s.readReg rs2) v

/-- R131. `Wrote32` speaks of the model's carry and count of draws too (DESIGN CHOICE, log entries 10 and 4). -/
def Obligations.V3EncmContributes : Prop :=
  ∀ (rd rs1 rs2 : Reg) (bs : ByteSel) (s : State), ¬ Lacks s.cfg .v3Encm →
    ∃ t v, exec (.v3Encm rd rs1 rs2 bs) s = .next t ∧ Wrote32 s t rd v ∧
      Contribution encCoefficients (byte (s.readReg rs1) bs.toNat) bs.toNat (s.readReg rs2) v

/-- R132. `Wrote32` speaks of the model's carry and count of draws too (DESIGN CHOICE, log entries 10 and 4). -/
def Obligations.V3EncsmSubstitutesAndContributes : Prop :=
  ∀ (rd rs1 rs2 : Reg) (bs : ByteSel) (s : State), ¬ Lacks s.cfg .v3Encsm →
    ∃ t v, exec (.v3Encsm rd rs1 rs2 bs) s = .next t ∧ Wrote32 s t rd v ∧
      Contribution encCoefficients (aesSbox (byte (s.readReg rs1) bs.toNat)) bs.toNat (s.readReg rs2) v

/-- R133. `Wrote32` speaks of the model's carry and count of draws too (DESIGN CHOICE, log entries 10 and 4). -/
def Obligations.V3DecsSubstitutesInPlace : Prop :=
  ∀ (rd rs1 rs2 : Reg) (bs : ByteSel) (s : State), ¬ Lacks s.cfg .v3Decs →
    ∃ t v, exec (.v3Decs rd rs1 rs2 bs) s = .next t ∧ Wrote32 s t rd v ∧
      InPlace (invAesSbox (byte (s.readReg rs1) bs.toNat)) bs.toNat (s.readReg rs2) v

/-- R134. `Wrote32` speaks of the model's carry and count of draws too (DESIGN CHOICE, log entries 10 and 4). -/
def Obligations.V3DecmContributes : Prop :=
  ∀ (rd rs1 rs2 : Reg) (bs : ByteSel) (s : State), ¬ Lacks s.cfg .v3Decm →
    ∃ t v, exec (.v3Decm rd rs1 rs2 bs) s = .next t ∧ Wrote32 s t rd v ∧
      Contribution decCoefficients (byte (s.readReg rs1) bs.toNat) bs.toNat (s.readReg rs2) v

/-- R135. `Wrote32` speaks of the model's carry and count of draws too (DESIGN CHOICE, log entries 10 and 4). -/
def Obligations.V3DecsmSubstitutesAndContributes : Prop :=
  ∀ (rd rs1 rs2 : Reg) (bs : ByteSel) (s : State), ¬ Lacks s.cfg .v3Decsm →
    ∃ t v, exec (.v3Decsm rd rs1 rs2 bs) s = .next t ∧ Wrote32 s t rd v ∧
      Contribution decCoefficients (invAesSbox (byte (s.readReg rs1) bs.toNat)) bs.toNat (s.readReg rs2) v

/-- R132, R135: "`encsm(rs1, rs2, bs) = encm(encs(rs1, 0, bs), rs2, bs)`", and so for `decsm`. -/
def Obligations.V3FusedIsSubstituteThenMix : Prop :=
  ∀ (bs : ByteSel) (a b : Word),
    selectResult aesSbox encColumn bs a b =
      selectResult id encColumn bs (inReg (selectResult aesSbox plainColumn bs a 0#64)) b ∧
    selectResult invAesSbox decColumn bs a b =
      selectResult id decColumn bs (inReg (selectResult invAesSbox plainColumn bs a 0#64)) b

/-- R131, R134: four `encm` (`decm`) of one register, chained through `rd = rs2`, give MixCol (InvMixCol) of its low word
exclusive-ored with the accumulator. -/
def Obligations.FourContributionsMixTheColumn : Prop :=
  ∀ (acc src : Reg) (s : State), acc ≠ 0#5 → src ≠ acc →
    (¬ Lacks s.cfg .v3Encm →
      ∃ t, execAll [.v3Encm acc src acc 0#2, .v3Encm acc src acc 1#2, .v3Encm acc src acc 2#2,
          .v3Encm acc src acc 3#2] s = .next t ∧
        word (t.readReg acc) 0 = mixCol (word (s.readReg src) 0) ^^^ word (s.readReg acc) 0) ∧
    (¬ Lacks s.cfg .v3Decm →
      ∃ t, execAll [.v3Decm acc src acc 0#2, .v3Decm acc src acc 1#2, .v3Decm acc src acc 2#2,
          .v3Decm acc src acc 3#2] s = .next t ∧
        word (t.readReg acc) 0 = invMixCol (word (s.readReg src) 0) ^^^ word (s.readReg acc) 0)

/-! ### Variant 4 -/

/-- R150. `Wrote` speaks of the model's carry and count of draws too (DESIGN CHOICE, log entries 10 and 4). -/
def Obligations.V4SubSubstitutesAllBytes : Prop :=
  ∀ (rd rs1 : Reg) (s : State), ¬ Lacks s.cfg .v4Sub →
    ∃ t v, exec (.v4Sub rd rs1) s = .next t ∧ Wrote s t rd v ∧
      ∀ k < 8, byte v k = aesSbox (byte (s.readReg rs1) k)

/-- R151. `Wrote` speaks of the model's carry and count of draws too (DESIGN CHOICE, log entries 10 and 4). -/
def Obligations.V4ImixMixesBothColumns : Prop :=
  ∀ (rd rs1 : Reg) (s : State), ¬ Lacks s.cfg .v4Imix →
    ∃ t v, exec (.v4Imix rd rs1) s = .next t ∧ Wrote s t rd v ∧
      ∀ c < 2, word v c = invMixCol (word (s.readReg rs1) c)

/-- R152, R153. `Wrote` speaks of the model's carry and count of draws too (DESIGN CHOICE, log entries 10 and 4). -/
def Obligations.V4EncsmIsTheEncryptionRound : Prop :=
  ∀ (rd rs1 rs2 : Reg) (s : State),
    (¬ Lacks s.cfg .v4EncsmLo → ∃ t v, exec (.v4EncsmLo rd rs1 rs2) s = .next t ∧ Wrote s t rd v ∧
      ∀ c < 2, word v c = mixCol (encryptColumn (s.readReg rs1) (s.readReg rs2) c)) ∧
    (¬ Lacks s.cfg .v4EncsmHi → ∃ t v, exec (.v4EncsmHi rd rs1 rs2) s = .next t ∧ Wrote s t rd v ∧
      ∀ c < 2, word v c = mixCol (encryptColumn (s.readReg rs1) (s.readReg rs2) (c + 2)))

/-- R154, R155. `Wrote` speaks of the model's carry and count of draws too (DESIGN CHOICE, log entries 10 and 4). -/
def Obligations.V4EncsIsTheLastEncryptionRound : Prop :=
  ∀ (rd rs1 rs2 : Reg) (s : State),
    (¬ Lacks s.cfg .v4EncsLo → ∃ t v, exec (.v4EncsLo rd rs1 rs2) s = .next t ∧ Wrote s t rd v ∧
      ∀ c < 2, word v c = encryptColumn (s.readReg rs1) (s.readReg rs2) c) ∧
    (¬ Lacks s.cfg .v4EncsHi → ∃ t v, exec (.v4EncsHi rd rs1 rs2) s = .next t ∧ Wrote s t rd v ∧
      ∀ c < 2, word v c = encryptColumn (s.readReg rs1) (s.readReg rs2) (c + 2))

/-- R156, R157. `Wrote` speaks of the model's carry and count of draws too (DESIGN CHOICE, log entries 10 and 4). -/
def Obligations.V4DecsmIsTheDecryptionRound : Prop :=
  ∀ (rd rs1 rs2 : Reg) (s : State),
    (¬ Lacks s.cfg .v4DecsmLo → ∃ t v, exec (.v4DecsmLo rd rs1 rs2) s = .next t ∧ Wrote s t rd v ∧
      ∀ c < 2, word v c = invMixCol (decryptColumn (s.readReg rs1) (s.readReg rs2) c)) ∧
    (¬ Lacks s.cfg .v4DecsmHi → ∃ t v, exec (.v4DecsmHi rd rs1 rs2) s = .next t ∧ Wrote s t rd v ∧
      ∀ c < 2, word v c = invMixCol (decryptColumn (s.readReg rs1) (s.readReg rs2) (c + 2)))

/-- R158, R159. `Wrote` speaks of the model's carry and count of draws too (DESIGN CHOICE, log entries 10 and 4). -/
def Obligations.V4DecsIsTheLastDecryptionRound : Prop :=
  ∀ (rd rs1 rs2 : Reg) (s : State),
    (¬ Lacks s.cfg .v4DecsLo → ∃ t v, exec (.v4DecsLo rd rs1 rs2) s = .next t ∧ Wrote s t rd v ∧
      ∀ c < 2, word v c = decryptColumn (s.readReg rs1) (s.readReg rs2) c) ∧
    (¬ Lacks s.cfg .v4DecsHi → ∃ t v, exec (.v4DecsHi rd rs1 rs2) s = .next t ∧ Wrote s t rd v ∧
      ∀ c < 2, word v c = decryptColumn (s.readReg rs1) (s.readReg rs2) (c + 2))

/-- R153 (an inference the spec marks as its own), C9: `*.hi(a, b) = *.lo(b, a)` for all four pairs. -/
def Obligations.HighHalfIsTheSwappedLowHalf : Prop :=
  ∀ (a b : Word) (dec mix : Bool), highHalf (v4Round a b dec mix) = lowHalf (v4Round b a dec mix)

/-- R158 (an inference the spec marks as its own): `decs` is the inverse function of `encs` on the whole state. -/
def Obligations.DecsUndoesEncs : Prop :=
  ∀ a b : Word,
    lowHalf (v4Round (lowHalf (v4Round a b false false)) (highHalf (v4Round a b false false)) true false) = a ∧
    highHalf (v4Round (lowHalf (v4Round a b false false)) (highHalf (v4Round a b false false)) true false) = b

/-- R151, R156, program P3 of 95_test_vectors.md: `imix` of both halves, then `decs`, inverts `encsm`. -/
def Obligations.ImixThenDecsUndoesEncsm : Prop :=
  ∀ a b : Word,
    lowHalf (v4Round (imixWords (lowHalf (v4Round a b false true)))
      (imixWords (highHalf (v4Round a b false true))) true false) = a ∧
    highHalf (v4Round (imixWords (lowHalf (v4Round a b false true)))
      (imixWords (highHalf (v4Round a b false true))) true false) = b

/-! ### The AES functions -/

/-- R91: the table is the affine map of the inverse in GF(2^8), of 0 for 0; it is a bijection without a fixed point, and
`AESSBox(0x53) = 0xED`. -/
def Obligations.SboxIsTheAffineMapOfTheInverse : Prop :=
  (∀ a i : Byte, (if a = 0#8 then i = 0#8 else gfmul a i = 1#8) → aesSbox a = affine i) ∧
    (∀ a : Byte, a ≠ 0#8 → ∃ i, gfmul a i = 1#8) ∧
    (∀ a b : Byte, aesSbox a = aesSbox b → a = b) ∧ (∀ b : Byte, ∃ a, aesSbox a = b) ∧ (∀ a : Byte, aesSbox a ≠ a) ∧
    aesSbox 0x53#8 = 0xED#8

/-- R94: the product is that of the polynomials, reduced modulo `x^8 + x^4 + x^3 + x + 1` (`0x11B`); in terms of `xtime` it is
the table's for the constants the source uses, and for any byte the exclusive-or of `xtime^k(a)` over its bits;
`GFMUL(0, c) = 0`, and it is linear in its first argument. -/
def Obligations.GfmulIsTheReducedPolynomialProduct : Prop :=
  (∀ a c : Byte, ∃ q : Byte,
    polyMul (a.setWidth 16) (c.setWidth 16) = polyMul (q.setWidth 16) 0x11B#16 ^^^ (gfmul a c).setWidth 16) ∧
  (∀ a : Byte, gfmul a 1#8 = a ∧ gfmul a 2#8 = xtime a ∧ gfmul a 3#8 = xtime a ^^^ a ∧
    gfmul a 9#8 = xtime (xtime (xtime a)) ^^^ a ∧ gfmul a 11#8 = xtime (xtime (xtime a)) ^^^ xtime a ^^^ a ∧
    gfmul a 13#8 = xtime (xtime (xtime a)) ^^^ xtime (xtime a) ^^^ a ∧
    gfmul a 14#8 = xtime (xtime (xtime a)) ^^^ xtime (xtime a) ^^^ xtime a) ∧
  (∀ a b : Byte, gfmul a b =
    (List.range 8).foldl (fun acc k => if b.getLsbD k then acc ^^^ xtime^[k] a else acc) 0#8) ∧
  (∀ c : Byte, gfmul 0#8 c = 0#8) ∧ (∀ a b c : Byte, gfmul (a ^^^ b) c = gfmul a c ^^^ gfmul b c) ∧
  [2#8, 3#8, 9#8, 11#8, 13#8, 14#8].map (gfmul 0x57#8) = [0xAE#8, 0xF9#8, 0xD9#8, 0x77#8, 0x9E#8, 0x67#8] ∧
  gfmul 0x80#8 2#8 = 0x1B#8 ∧ gfmul 0xFF#8 3#8 = 0x1A#8

/-- R95: `ROTL32(u, 0) = u`; for `n` = 8, 16, 24 it is `cat(u[31-n:0], u[31:32-n])`; `ROTL32(u, 8*bs)` moves byte `i` to byte
`(i + bs) mod 4`. -/
def Obligations.Rotl32MovesBytes : Prop :=
  (∀ u : Word32, rotl32 u 0 = u ∧ rotl32 u 8 = u.extractLsb' 0 24 ++ u.extractLsb' 24 8 ∧
    rotl32 u 16 = u.extractLsb' 0 16 ++ u.extractLsb' 16 16 ∧ rotl32 u 24 = u.extractLsb' 0 8 ++ u.extractLsb' 8 24) ∧
  (∀ (u : Word32) (bs : ByteSel) (i : Nat), i < 4 → byte (rotl32 u (8 * bs.toNat)) ((i + bs.toNat) % 4) = byte u i) ∧
  rotl32 0x000000AB#32 8 = 0x0000AB00#32 ∧ rotl32 0xA56363C6#32 24 = 0xC6A56363#32

/-- R97: row `r` of InvMixCol is the row of the matrix, each row the one above rotated; it and MixCol undo each other. -/
def Obligations.InvMixColIsTheInverseMatrix : Prop :=
  (∀ (w : Word32) (r : Nat), r < 4 →
    byte (invMixCol w) r = gfmul (byte w r) 14#8 ^^^ gfmul (byte w ((r + 1) % 4)) 11#8 ^^^
      gfmul (byte w ((r + 2) % 4)) 13#8 ^^^ gfmul (byte w ((r + 3) % 4)) 9#8) ∧
  (∀ x : Byte, invMixCol (x.setWidth 32) = cat4 (gfmul x 11#8) (gfmul x 13#8) (gfmul x 9#8) (gfmul x 14#8)) ∧
  (∀ w : Word32, invMixCol (mixCol w) = w ∧ mixCol (invMixCol w) = w) ∧
  invMixCol 0xBCA14D8E#32 = 0x455313DB#32 ∧ invMixCol 0x00000001#32 = 0x0B0D090E#32 ∧
  invMixCol 0x01010101#32 = 0x01010101#32

/-- R96 (an inference the spec marks as its own): MixCol is the exclusive-or of the four rotated contributions; so is
InvMixCol. -/
def Obligations.MixColIsTheSumOfContributions : Prop :=
  ∀ w : Word32,
    mixCol w = rotl32 (encColumn (byte w 0)) 0 ^^^ rotl32 (encColumn (byte w 1)) 8 ^^^
      rotl32 (encColumn (byte w 2)) 16 ^^^ rotl32 (encColumn (byte w 3)) 24 ∧
    invMixCol w = rotl32 (decColumn (byte w 0)) 0 ^^^ rotl32 (decColumn (byte w 1)) 8 ^^^
      rotl32 (decColumn (byte w 2)) 16 ^^^ rotl32 (decColumn (byte w 3)) 24

/-- R98, R99: row `r` moves by `r` columns, left or right, as the two index tables say, and the second undoes the first. -/
def Obligations.ShiftRowsRotatesTheRows : Prop :=
  (∀ (t : Block) (r c : Nat), r < 4 → c < 4 →
    byte (shiftRows t) (r + 4 * c) = byte t (r + 4 * ((c + r) % 4)) ∧
    byte (invShiftRows t) (r + 4 * c) = byte t (r + 4 * ((c + 4 - r) % 4))) ∧
  (∀ (t : Block) (k : Nat) (h : k < 16),
    byte (shiftRows t) k = byte t ([0, 5, 10, 15, 4, 9, 14, 3, 8, 13, 2, 7, 12, 1, 6, 11][k]'h) ∧
    byte (invShiftRows t) k = byte t ([0, 13, 10, 7, 4, 1, 14, 11, 8, 5, 2, 15, 12, 9, 6, 3][k]'h)) ∧
  ∀ t : Block, invShiftRows (shiftRows t) = t

/-- R102: the results without an S-box are linear over GF(2). -/
def Obligations.ResultsWithoutSboxAreLinear : Prop :=
  (∀ (row0 : MixRow0) (a a' b b' : Word),
    mixPair row0 mixCol (a ^^^ a') (b ^^^ b') = mixPair row0 mixCol a b ^^^ mixPair row0 mixCol a' b' ∧
    mixPair row0 invMixCol (a ^^^ a') (b ^^^ b') = mixPair row0 invMixCol a b ^^^ mixPair row0 invMixCol a' b') ∧
  (∀ (bs : ByteSel) (a a' : Word),
    selectResult id encColumn bs (a ^^^ a') 0#64 = selectResult id encColumn bs a 0#64 ^^^ selectResult id encColumn bs a' 0#64 ∧
    selectResult id decColumn bs (a ^^^ a') 0#64 = selectResult id decColumn bs a 0#64 ^^^ selectResult id decColumn bs a' 0#64) ∧
  ∀ a a' : Word, imixWords (a ^^^ a') = imixWords a ^^^ imixWords a'

/-! ### Rounds -/

/-- R137 (an inference the spec marks as its own): four chained Variant 3 instructions, the source of byte `b` of column `c`
the column word `(c + b) mod 4` (`(c - b) mod 4` to decrypt), add column `c` of the Variant 4 round of the state to the
accumulator. -/
def Obligations.Variant3RoundIsTheVariant4Round : Prop :=
  ∀ (dec mix : Bool) (col : Nat → Reg) (acc : Reg) (s : State) (c : Nat), c < 4 → acc ≠ 0#5 →
    (∀ k < 4, col k ≠ acc) → ¬ Lacks s.cfg (selectInstr dec mix acc acc acc 0#2).mnemonic →
    ∃ t, execAll ((List.range 4).map fun b =>
        selectInstr dec mix acc (col ((if dec then c + 4 - b else c + b) % 4)) acc (BitVec.ofNat 2 b)) s = .next t ∧
      word (t.readReg acc) 0 = word (s.readReg acc) 0 ^^^
        word (v4Round (cat2w (word (s.readReg (col 1)) 0) (word (s.readReg (col 0)) 0))
          (cat2w (word (s.readReg (col 3)) 0) (word (s.readReg (col 2)) 0)) dec mix) c

/-- R125 (an inference the spec marks as its own): the eight Variant 2 results of a round are the four columns of the Variant 4
round, encrypting and decrypting. -/
def Obligations.Variant2RoundIsTheVariant4Round : Prop :=
  ∀ s0 s1 s2 s3 : Word32,
    (let sub := fun a b => inReg (subPair aesSbox (inReg a) (inReg b))
     let mix := mixPair .t0 mixCol
     let next := v4Round (cat2w s1 s0) (cat2w s3 s2) false true
     mix (sub s0 s1) (sub s2 s3) = word next 0 ∧ mix (sub s1 s2) (sub s3 s0) = word next 1 ∧
       mix (sub s2 s3) (sub s0 s1) = word next 2 ∧ mix (sub s3 s0) (sub s1 s2) = word next 3) ∧
    (let sub := fun a b => inReg (subPair invAesSbox (inReg a) (inReg b))
     let mix := mixPair .t0 invMixCol
     let next := v4Round (cat2w s1 s0) (cat2w s3 s2) true true
     mix (sub s0 s3) (sub s2 s1) = word next 0 ∧ mix (sub s1 s0) (sub s3 s2) = word next 1 ∧
       mix (sub s2 s1) (sub s0 s3) = word next 2 ∧ mix (sub s3 s2) (sub s1 s0) = word next 3)
end

