-- ==== Sys2Proof/Laws/Bytes.lean ====
section
/-!
SUPPORT. The laws of element views and concatenation: which byte and which word of a composite value is which of its parts, and
that a value is determined by its bytes.
-/

namespace Sys2Proof.Machine

/-! ### A value is determined by its bits, its bytes, its words -/

theorem getLsbD_byte {n : Nat} (v : BitVec n) (i k : Nat) (hk : k < 8) :
    (byte v i).getLsbD k = v.getLsbD (8 * i + k) := by
  simp [byte, hk]

theorem getLsbD_word {n : Nat} (v : BitVec n) (i k : Nat) (hk : k < 32) :
    (word v i).getLsbD k = v.getLsbD (32 * i + k) := by
  simp [word, hk]

/-- Two values of `8 * m` bits with the same bytes are equal. -/
theorem eq_of_byte_eq {n : Nat} (m : Nat) (hn : n = 8 * m) {v w : BitVec n}
    (h : ∀ i < m, byte v i = byte w i) : v = w := by
  apply BitVec.eq_of_getLsbD_eq
  intro k hk
  have hb := congrArg (fun b => b.getLsbD (k % 8)) (h (k / 8) (by omega))
  simp only [getLsbD_byte _ _ _ (Nat.mod_lt k (by decide : 8 > 0))] at hb
  rwa [Nat.div_add_mod] at hb

/-- Two values of `32 * m` bits with the same words are equal. -/
theorem eq_of_word_eq {n : Nat} (m : Nat) (hn : n = 32 * m) {v w : BitVec n}
    (h : ∀ i < m, word v i = word w i) : v = w := by
  apply BitVec.eq_of_getLsbD_eq
  intro k hk
  have hb := congrArg (fun b => b.getLsbD (k % 32)) (h (k / 32) (by omega))
  simp only [getLsbD_word _ _ _ (Nat.mod_lt k (by decide : 32 > 0))] at hb
  rwa [Nat.div_add_mod] at hb

theorem eq_of_bytes4 {v w : Word32} (h0 : byte v 0 = byte w 0) (h1 : byte v 1 = byte w 1)
    (h2 : byte v 2 = byte w 2) (h3 : byte v 3 = byte w 3) : v = w :=
  eq_of_byte_eq 4 rfl fun i hi => by
    match i, hi with
    | 0, _ => exact h0
    | 1, _ => exact h1
    | 2, _ => exact h2
    | 3, _ => exact h3

theorem eq_of_words2 {v w : Word} (h0 : word v 0 = word w 0) (h1 : word v 1 = word w 1) : v = w :=
  eq_of_word_eq 2 rfl fun i hi => by
    match i, hi with
    | 0, _ => exact h0
    | 1, _ => exact h1

theorem eq_of_words4 {v w : Block} (h0 : word v 0 = word w 0) (h1 : word v 1 = word w 1)
    (h2 : word v 2 = word w 2) (h3 : word v 3 = word w 3) : v = w :=
  eq_of_word_eq 4 rfl fun i hi => by
    match i, hi with
    | 0, _ => exact h0
    | 1, _ => exact h1
    | 2, _ => exact h2
    | 3, _ => exact h3

/-! ### Concatenation -/

section
variable (b3 b2 b1 b0 : Byte)

@[simp] theorem byte_cat4_0 : byte (cat4 b3 b2 b1 b0) 0 = b0 := by
  apply BitVec.eq_of_getLsbD_eq; intro k hk
  rw [getLsbD_byte _ _ _ hk]; simp only [cat4, BitVec.getLsbD_append]
  split_ifs <;> first | omega | (congr 1; omega)

@[simp] theorem byte_cat4_1 : byte (cat4 b3 b2 b1 b0) 1 = b1 := by
  apply BitVec.eq_of_getLsbD_eq; intro k hk
  rw [getLsbD_byte _ _ _ hk]; simp only [cat4, BitVec.getLsbD_append]
  split_ifs <;> first | omega | (congr 1; omega)

@[simp] theorem byte_cat4_2 : byte (cat4 b3 b2 b1 b0) 2 = b2 := by
  apply BitVec.eq_of_getLsbD_eq; intro k hk
  rw [getLsbD_byte _ _ _ hk]; simp only [cat4, BitVec.getLsbD_append]
  split_ifs <;> first | omega | (congr 1; omega)

@[simp] theorem byte_cat4_3 : byte (cat4 b3 b2 b1 b0) 3 = b3 := by
  apply BitVec.eq_of_getLsbD_eq; intro k hk
  rw [getLsbD_byte _ _ _ hk]; simp only [cat4, BitVec.getLsbD_append]
  split_ifs <;> first | omega | (congr 1; omega)

end

@[simp] theorem word_cat2w_0 (w1 w0 : Word32) : word (cat2w w1 w0) 0 = w0 := by
  apply BitVec.eq_of_getLsbD_eq; intro k hk
  rw [getLsbD_word _ _ _ hk]; simp only [cat2w, BitVec.getLsbD_append]
  split_ifs <;> first | omega | (congr 1; omega)

@[simp] theorem word_cat2w_1 (w1 w0 : Word32) : word (cat2w w1 w0) 1 = w1 := by
  apply BitVec.eq_of_getLsbD_eq; intro k hk
  rw [getLsbD_word _ _ _ hk]; simp only [cat2w, BitVec.getLsbD_append]
  split_ifs <;> first | omega | (congr 1; omega)

section
variable (w3 w2 w1 w0 : Word32)

@[simp] theorem word_cat4w_0 : word (cat4w w3 w2 w1 w0) 0 = w0 := by
  apply BitVec.eq_of_getLsbD_eq; intro k hk
  rw [getLsbD_word _ _ _ hk]; simp only [cat4w, BitVec.getLsbD_append]
  split_ifs <;> first | omega | (congr 1; omega)

@[simp] theorem word_cat4w_1 : word (cat4w w3 w2 w1 w0) 1 = w1 := by
  apply BitVec.eq_of_getLsbD_eq; intro k hk
  rw [getLsbD_word _ _ _ hk]; simp only [cat4w, BitVec.getLsbD_append]
  split_ifs <;> first | omega | (congr 1; omega)

@[simp] theorem word_cat4w_2 : word (cat4w w3 w2 w1 w0) 2 = w2 := by
  apply BitVec.eq_of_getLsbD_eq; intro k hk
  rw [getLsbD_word _ _ _ hk]; simp only [cat4w, BitVec.getLsbD_append]
  split_ifs <;> first | omega | (congr 1; omega)

@[simp] theorem word_cat4w_3 : word (cat4w w3 w2 w1 w0) 3 = w3 := by
  apply BitVec.eq_of_getLsbD_eq; intro k hk
  rw [getLsbD_word _ _ _ hk]; simp only [cat4w, BitVec.getLsbD_append]
  split_ifs <;> first | omega | (congr 1; omega)

end

/-! ### A byte of a word of a value, a byte of a built value -/

/-- Byte `i` of word `c` is byte `4c + i` (R11). -/
theorem byte_word {n : Nat} (v : BitVec n) (c : Nat) {i : Nat} (hi : i < 4) :
    byte (word v c) i = byte v (4 * c + i) := by
  apply BitVec.eq_of_getLsbD_eq; intro k hk
  rw [getLsbD_byte _ _ _ hk, getLsbD_byte _ _ _ hk, getLsbD_word _ _ _ (by omega)]
  congr 1; omega

theorem byte_wordOf (f : Nat → Byte) {i : Nat} (hi : i < 4) : byte (wordOf f) i = f i := by
  match i, hi with
  | 0, _ | 1, _ | 2, _ | 3, _ => simp [wordOf]

/-- Byte `b(i)` of the state built from `f` is `f i` (R90). -/
theorem byte_blockOf (f : Nat → Byte) {i : Nat} (hi : i < 16) : byte (blockOf f) i = f i := by
  have h := byte_word (blockOf f) (i / 4) (i := i % 4) (by omega)
  rw [Nat.div_add_mod] at h
  rw [← h]
  have hc : i / 4 < 4 := by omega
  have hr : i % 4 < 4 := by omega
  have e := Nat.div_add_mod i 4
  generalize i / 4 = c at *
  generalize i % 4 = r at *
  subst e
  match c, hc with
  | 0, _ | 1, _ | 2, _ | 3, _ => simp [blockOf, byte_wordOf _ hr, Nat.add_comm]

/-- Column `c` of the state built from `f` (R90). -/
theorem word_blockOf (f : Nat → Byte) {c : Nat} (hc : c < 4) :
    word (blockOf f) c = wordOf fun r => f (4 * c + r) := by
  refine eq_of_byte_eq 4 rfl fun i hi => ?_
  rw [byte_word _ _ hi, byte_blockOf _ (by omega), byte_wordOf _ hi]

theorem wordOf_byte (w : Word32) : wordOf (byte w) = w :=
  eq_of_byte_eq 4 rfl fun _ hi => byte_wordOf _ hi

theorem blockOf_byte (t : Block) : blockOf (byte t) = t :=
  eq_of_byte_eq 16 rfl fun _ hi => byte_blockOf _ hi

theorem wordOf_congr {f g : Nat → Byte} (h : ∀ i < 4, f i = g i) : wordOf f = wordOf g := by
  simp [wordOf, h 0, h 1, h 2, h 3]

/-! ### The state in two registers (R160) -/

/-- Byte `b(i)` of the state held in `a` and `b` (R160). -/
theorem byte_stateOf (a b : Word) {i : Nat} (hi : i < 16) : byte (stateOf a b) i = stateByte a b i := by
  apply BitVec.eq_of_getLsbD_eq; intro k hk
  rw [getLsbD_byte _ _ _ hk]
  simp only [stateOf, BitVec.getLsbD_append, stateByte]
  split <;> split
  · rw [getLsbD_byte _ _ _ hk]
  · omega
  · omega
  · rw [getLsbD_byte _ _ _ hk]; congr 1; omega

@[simp] theorem word_lowHalf (t : Block) {c : Nat} (hc : c < 2) : word (lowHalf t) c = word t c := by
  apply BitVec.eq_of_getLsbD_eq; intro k hk
  rw [getLsbD_word _ _ _ hk, getLsbD_word _ _ _ hk]
  simp only [lowHalf, BitVec.getLsbD_extractLsb']
  simp; omega

@[simp] theorem word_highHalf (t : Block) {c : Nat} (hc : c < 2) : word (highHalf t) c = word t (c + 2) := by
  apply BitVec.eq_of_getLsbD_eq; intro k hk
  rw [getLsbD_word _ _ _ hk, getLsbD_word _ _ _ hk]
  have e : 64 + (32 * c + k) = 32 * (c + 2) + k := by omega
  have h : 32 * c + k < 64 := by omega
  simp [highHalf, e, h]

theorem stateOf_halves (t : Block) : stateOf (lowHalf t) (highHalf t) = t := by
  apply BitVec.eq_of_getLsbD_eq; intro k hk
  simp only [stateOf, lowHalf, highHalf, BitVec.getLsbD_append, BitVec.getLsbD_extractLsb']
  split
  · simp_all
  · have e : 64 + (k - 64) = k := by omega
    have h : k - 64 < 64 := by omega
    simp [e, h]

@[simp] theorem lowHalf_stateOf (a b : Word) : lowHalf (stateOf a b) = a := by
  apply BitVec.eq_of_getLsbD_eq; intro k hk
  simp only [lowHalf, stateOf, BitVec.getLsbD_extractLsb', BitVec.getLsbD_append]
  simp [hk]

@[simp] theorem highHalf_stateOf (a b : Word) : highHalf (stateOf a b) = b := by
  apply BitVec.eq_of_getLsbD_eq; intro k hk
  simp only [highHalf, stateOf, BitVec.getLsbD_extractLsb', BitVec.getLsbD_append]
  simp [hk]

/-! ### Exclusive-or, extension -/

@[simp] theorem byte_xor {n : Nat} (v w : BitVec n) (i : Nat) : byte (v ^^^ w) i = byte v i ^^^ byte w i := by
  apply BitVec.eq_of_getLsbD_eq; intro k hk
  simp [getLsbD_byte _ _ _ hk]

@[simp] theorem word_xor {n : Nat} (v w : BitVec n) (i : Nat) : word (v ^^^ w) i = word v i ^^^ word w i := by
  apply BitVec.eq_of_getLsbD_eq; intro k hk
  simp [getLsbD_word _ _ _ hk]

@[simp] theorem word_setWidth_0 (v : Word32) : word (v.setWidth 64) 0 = v := by
  apply BitVec.eq_of_getLsbD_eq; intro k hk
  rw [getLsbD_word _ _ _ hk]
  simp; omega

@[simp] theorem word_setWidth_1 (v : Word32) : word (v.setWidth 64) 1 = 0#32 := by
  apply BitVec.eq_of_getLsbD_eq; intro k hk
  rw [getLsbD_word _ _ _ hk]
  simp

@[simp] theorem word_signExtend_0 (v : Word32) : word (v.signExtend 64) 0 = v := by
  apply BitVec.eq_of_getLsbD_eq; intro k hk
  rw [getLsbD_word _ _ _ hk]
  simp [BitVec.getLsbD_signExtend, hk]
  omega

theorem word_signExtend_1 (v : Word32) :
    word (v.signExtend 64) 1 = if v.getLsbD 31 then 0xFFFFFFFF#32 else 0#32 := by
  apply BitVec.eq_of_getLsbD_eq; intro k hk
  rw [getLsbD_word _ _ _ hk, BitVec.getLsbD_signExtend]
  have h : ¬ 32 * 1 + k < 32 := by omega
  have h' : 32 * 1 + k < 64 := by omega
  simp only [h, h', decide_true, Bool.true_and, if_false, BitVec.msb_eq_getLsbD_last]
  have hones : ∀ k < 32, (0xFFFFFFFF#32).getLsbD k = true := by decide
  cases hv : v.getLsbD 31
  · simp
  · simp only [if_true, hones k hk]

/-- Byte `i < 4` of a register is byte `i` of its low word (R23: "low" means bits 31:0). -/
theorem byte_low {n : Nat} (v : BitVec n) {i : Nat} (hi : i < 4) : byte (word v 0) i = byte v i := by
  simpa using byte_word v 0 hi

theorem byte_setWidth (v : Word32) {i : Nat} (hi : i < 4) : byte (v.setWidth 64) i = byte v i := by
  rw [← byte_low _ hi]; simp

@[simp] theorem rev32_rev32 (w : Word32) : rev32 (rev32 w) = w := by
  apply eq_of_bytes4 <;> simp [rev32]

end Sys2Proof.Machine
end

