-- ==== Sys2Proof/Laws/Aes.lean ====
section
/-!
SUPPORT. The laws of the byte functions (40_aes_primitives.md R92 to R95): the field product by each constant, its linearity,
the two S-boxes as inverse tables, rotation by bytes, and which byte of a state function is which.
-/

namespace Sys2Proof.Machine

/-! ### GF(2^8) -/

theorem xtime_xor (a b : Byte) : xtime (a ^^^ b) = xtime a ^^^ xtime b := by
  have hs : (a ^^^ b) <<< 1 = (a <<< 1) ^^^ (b <<< 1) := BitVec.shiftLeft_xor_distrib a b 1
  have h27 (x y : Byte) : x ^^^ y = (x ^^^ 0x1B#8) ^^^ (y ^^^ 0x1B#8) := by
    have e : (x ^^^ 0x1B#8) ^^^ (y ^^^ 0x1B#8) = (x ^^^ y) ^^^ (0x1B#8 ^^^ 0x1B#8) := by ac_rfl
    simp [e]
  unfold xtime
  rw [BitVec.getLsbD_xor, hs]
  cases a.getLsbD 7 <;> cases b.getLsbD 7
  · rfl
  · simp only [Bool.false_xor, if_true]; exact BitVec.xor_assoc ..
  · simp only [Bool.xor_false, if_true, if_false, Bool.false_eq_true]; ac_rfl
  · exact h27 _ _

@[simp] theorem xtime_zero : xtime 0#8 = 0#8 := by decide

theorem pickBit_xor (c : Byte) (k : Nat) (v w : Byte) :
    pickBit c k (v ^^^ w) = pickBit c k v ^^^ pickBit c k w := by
  unfold pickBit; split <;> simp

/-- `GFMUL(a ^ b, c) = GFMUL(a, c) ^ GFMUL(b, c)` (R94). -/
theorem gfmul_xor (a b c : Byte) : gfmul (a ^^^ b) c = gfmul a c ^^^ gfmul b c := by
  simp only [gfmul, xtime_xor, pickBit_xor]
  ac_rfl

/-- `GFMUL(0, c) = 0` (R94). -/
@[simp] theorem gfmul_zero (c : Byte) : gfmul 0#8 c = 0#8 := by
  simp [gfmul, pickBit]

section
variable (a : Byte)

/-! The table of R94, a constant a line. -/

theorem gfmul_1 : gfmul a 1#8 = a := by simp [gfmul, pickBit]
theorem gfmul_2 : gfmul a 2#8 = xtime a := by simp [gfmul, pickBit]
theorem gfmul_3 : gfmul a 3#8 = a ^^^ xtime a := by simp [gfmul, pickBit]
theorem gfmul_9 : gfmul a 9#8 = a ^^^ xtime (xtime (xtime a)) := by simp [gfmul, pickBit]
theorem gfmul_11 : gfmul a 11#8 = a ^^^ xtime a ^^^ xtime (xtime (xtime a)) := by simp [gfmul, pickBit]
theorem gfmul_13 : gfmul a 13#8 = a ^^^ xtime (xtime a) ^^^ xtime (xtime (xtime a)) := by simp [gfmul, pickBit]
theorem gfmul_14 : gfmul a 14#8 = xtime a ^^^ xtime (xtime a) ^^^ xtime (xtime (xtime a)) := by
  simp [gfmul, pickBit]

end

/-! ### The S-boxes -/

/-- `InvAESSBox(AESSBox(a)) = a` (R92). -/
@[simp] theorem invAesSbox_aesSbox : ∀ a, invAesSbox (aesSbox a) = a := by decide

/-- `AESSBox(InvAESSBox(a)) = a` (R92). -/
@[simp] theorem aesSbox_invAesSbox : ∀ a, aesSbox (invAesSbox a) = a := by decide

/-! ### Rotation by bytes -/

/-- `ROTL32(u, 8*b)` "moves byte `i` of `u` to byte `(i + b) mod 4`" (R95). -/
theorem byte_rotl32 (u : Word32) {b i : Nat} (hb : b < 4) (hi : i < 4) :
    byte (rotl32 u (8 * b)) i = byte u ((i + 4 - b) % 4) := by
  apply BitVec.eq_of_getLsbD_eq; intro k hk
  rw [getLsbD_byte _ _ _ hk, getLsbD_byte _ _ _ hk]
  simp only [rotl32, BitVec.getLsbD_or, BitVec.getLsbD_shiftLeft, BitVec.getLsbD_ushiftRight]
  have h32 : 8 * i + k < 32 := by omega
  by_cases h : b ≤ i
  · have e : (i + 4 - b) % 4 = i - b := by omega
    have h1 : ¬ 8 * i + k < 8 * b := by omega
    have h2 : u.getLsbD (32 - 8 * b + (8 * i + k)) = false := by
      apply BitVec.getLsbD_of_ge; omega
    have h3 : 8 * i + k - 8 * b = 8 * (i - b) + k := by omega
    simp only [e, h1, h2, h3, h32]; simp
  · have e : (i + 4 - b) % 4 = i + 4 - b := by omega
    have h1 : 8 * i + k < 8 * b := by omega
    have h3 : 32 - 8 * b + (8 * i + k) = 8 * (i + 4 - b) + k := by omega
    simp only [e, h1, h3]; simp

@[simp] theorem rotl32_zero (u : Word32) : rotl32 u 0 = u := by
  simp [rotl32, BitVec.ushiftRight_eq_zero]

/-! ### State functions, byte by byte and column by column -/

theorem byte_subBytes (sb : Byte → Byte) (t : Block) {i : Nat} (hi : i < 16) :
    byte (subBytes sb t) i = sb (byte t i) := byte_blockOf _ hi

theorem shiftIndex_lt (i : Nat) : shiftIndex i < 16 := by unfold shiftIndex; omega

theorem invShiftIndex_lt (i : Nat) : invShiftIndex i < 16 := by unfold invShiftIndex; omega

/-- `out.b(i) = in.b(SR[i])` (R98). -/
theorem byte_shiftRows (t : Block) {i : Nat} (hi : i < 16) : byte (shiftRows t) i = byte t (shiftIndex i) :=
  byte_blockOf _ hi

/-- `out.b(i) = in.b(ISR[i])` (R99). -/
theorem byte_invShiftRows (t : Block) {i : Nat} (hi : i < 16) :
    byte (invShiftRows t) i = byte t (invShiftIndex i) := byte_blockOf _ hi

/-- `word(out, c) = MixCol(word(t, c))` (R100). -/
theorem word_mixColumns (t : Block) {c : Nat} (hc : c < 4) : word (mixColumns t) c = mixCol (word t c) := by
  match c, hc with
  | 0, _ | 1, _ | 2, _ | 3, _ => simp [mixColumns]

/-- `word(out, c) = InvMixCol(word(t, c))` (R101). -/
theorem word_invMixColumns (t : Block) {c : Nat} (hc : c < 4) :
    word (invMixColumns t) c = invMixCol (word t c) := by
  match c, hc with
  | 0, _ | 1, _ | 2, _ | 3, _ => simp [invMixColumns]

end Sys2Proof.Machine
end

