-- ==== Sys2Proof/Laws/Decode.lean ====
section
/-!
SUPPORT. The laws of the encoding's fields: what each field of a packed word is, that a word is its fields, and that a decoded
word is the word its instruction encodes to.
-/

namespace Sys2Proof

/-! ### The fields of a packed word (R63, R64) -/

section
variable (bs : ByteSel) (sel : BitVec 5) (rs2 rs1 rd : Reg)

@[simp] theorem opcodeField_packFields : opcodeField (packFields bs sel rs2 rs1 rd) = majorOpcode := by
  apply BitVec.eq_of_getLsbD_eq; intro k hk
  simp only [opcodeField, packFields, BitVec.getLsbD_extractLsb', BitVec.getLsbD_append]
  simp [hk]

@[simp] theorem rdField_packFields : rdField (packFields bs sel rs2 rs1 rd) = rd := by
  apply BitVec.eq_of_getLsbD_eq; intro k hk
  simp only [rdField, packFields, BitVec.getLsbD_extractLsb', BitVec.getLsbD_append, hk, decide_true, Bool.true_and]
  split_ifs <;> first | omega | (congr 1; omega)

@[simp] theorem funct3Field_packFields : funct3Field (packFields bs sel rs2 rs1 rd) = 0#3 := by
  apply BitVec.eq_of_getLsbD_eq; intro k hk
  simp only [funct3Field, packFields, BitVec.getLsbD_extractLsb', BitVec.getLsbD_append, hk, decide_true, Bool.true_and]
  split_ifs <;> first | omega | simp

@[simp] theorem rs1Field_packFields : rs1Field (packFields bs sel rs2 rs1 rd) = rs1 := by
  apply BitVec.eq_of_getLsbD_eq; intro k hk
  simp only [rs1Field, packFields, BitVec.getLsbD_extractLsb', BitVec.getLsbD_append, hk, decide_true, Bool.true_and]
  split_ifs <;> first | omega | (congr 1; omega)

@[simp] theorem rs2Field_packFields : rs2Field (packFields bs sel rs2 rs1 rd) = rs2 := by
  apply BitVec.eq_of_getLsbD_eq; intro k hk
  simp only [rs2Field, packFields, BitVec.getLsbD_extractLsb', BitVec.getLsbD_append, hk, decide_true, Bool.true_and]
  split_ifs <;> first | omega | (congr 1; omega)

@[simp] theorem selField_packFields : selField (packFields bs sel rs2 rs1 rd) = sel := by
  apply BitVec.eq_of_getLsbD_eq; intro k hk
  simp only [selField, packFields, BitVec.getLsbD_extractLsb', BitVec.getLsbD_append, hk, decide_true, Bool.true_and]
  split_ifs <;> first | omega | (congr 1; omega)

@[simp] theorem bsField_packFields : bsField (packFields bs sel rs2 rs1 rd) = bs := by
  apply BitVec.eq_of_getLsbD_eq; intro k hk
  simp only [bsField, packFields, BitVec.getLsbD_extractLsb', BitVec.getLsbD_append, hk, decide_true, Bool.true_and]
  split_ifs <;> first | omega | (congr 1; omega)

end

/-- A word of the major opcode with `funct3 = 000` is its other fields, packed. -/
theorem packFields_fields {w : Word32} (ho : opcodeField w = majorOpcode) (hf : funct3Field w = 0#3) :
    packFields (bsField w) (selField w) (rs2Field w) (rs1Field w) (rdField w) = w := by
  rw [packFields, ← ho, ← hf]
  apply BitVec.eq_of_getLsbD_eq; intro k hk
  simp only [bsField, selField, rs2Field, rs1Field, funct3Field, rdField, opcodeField,
    BitVec.getLsbD_extractLsb', BitVec.getLsbD_append]
  have hlt (n m : Nat) (p : Bool) (h : m < n) : (decide (m < n) && p) = p := by simp [h]
  split_ifs <;> rw [hlt _ _ _ (by omega)] <;> congr 1 <;> omega

/-! ### The masks of the opcode map (R69) -/

theorem and_append {m n : Nat} (a c : BitVec m) (b d : BitVec n) :
    (a ++ b) &&& (c ++ d) = (a &&& c) ++ (b &&& d) := by
  apply BitVec.eq_of_getLsbD_eq; intro k _
  simp only [BitVec.getLsbD_and, BitVec.getLsbD_append]
  split <;> rfl

section
variable (bs : ByteSel) (sel : BitVec 5) (rs2 rs1 rd : Reg)

theorem packFields_and (mbs : ByteSel) (mrs2 : Reg) :
    packFields bs sel rs2 rs1 rd &&& (mbs ++ 31#5 ++ mrs2 ++ 0#5 ++ 7#3 ++ 0#5 ++ 127#7) =
      packFields (bs &&& mbs) sel (rs2 &&& mrs2) 0#5 0#5 := by
  have join {m n : Nat} {a c x : BitVec m} {b d y : BitVec n} (hx : a &&& c = x) (hy : b &&& d = y) :
      (a ++ b) &&& (c ++ d) = x ++ y := by rw [and_append, hx, hy]
  exact join (join (join (join (join (join rfl BitVec.and_allOnes) rfl) BitVec.and_zero) rfl)
    BitVec.and_zero) rfl

theorem packFields_maskUnary :
    packFields bs sel rs2 rs1 rd &&& maskUnary = packFields bs sel rs2 0#5 0#5 := by
  have hb : bs &&& 3#2 = bs := BitVec.and_allOnes
  have hr : rs2 &&& 31#5 = rs2 := BitVec.and_allOnes
  have h := packFields_and bs sel rs2 rs1 rd 3#2 31#5
  rwa [hb, hr] at h

theorem packFields_maskBinary :
    packFields bs sel rs2 rs1 rd &&& maskBinary = packFields bs sel 0#5 0#5 0#5 := by
  have hb : bs &&& 3#2 = bs := BitVec.and_allOnes
  have h := packFields_and bs sel rs2 rs1 rd 3#2 0#5
  rwa [hb, BitVec.and_zero] at h

theorem packFields_maskSelect :
    packFields bs sel rs2 rs1 rd &&& maskSelect = packFields 0#2 sel 0#5 0#5 0#5 := by
  have h := packFields_and bs sel rs2 rs1 rd 0#2 0#5
  rwa [BitVec.and_zero, BitVec.and_zero] at h

end

/-! ### Decoding and encoding -/

theorem decodeUnary_ok {w : Word32} {mk : Reg → Reg → Instr} {i : Instr} (h : decodeUnary w mk = .ok i) :
    bsField w = 0#2 ∧ rs2Field w = 0#5 ∧ i = mk (rdField w) (rs1Field w) := by
  unfold decodeUnary at h
  split at h
  · split at h
    · next hb hr => exact ⟨hb, hr, by injection h with h; exact h.symm⟩
    · cases h
  · cases h

theorem decodeBinary_ok {w : Word32} {mk : Reg → Reg → Reg → Instr} {i : Instr} (h : decodeBinary w mk = .ok i) :
    bsField w = 0#2 ∧ i = mk (rdField w) (rs1Field w) (rs2Field w) := by
  unfold decodeBinary at h
  split at h
  · next hb => exact ⟨hb, by injection h with h; exact h.symm⟩
  · cases h

theorem decodeSelect_ok {w : Word32} {mk : Reg → Reg → Reg → ByteSel → Instr} {i : Instr}
    (h : decodeSelect w mk = .ok i) : i = mk (rdField w) (rs1Field w) (rs2Field w) (bsField w) := by
  injection h with h; exact h.symm

/-- A word that decodes is the word of its instruction: no bit of it is dropped (R70). -/
theorem encode_of_decode {w : Word32} {i : Instr} (h : decodeWord w = .ok i) : encode i = w := by
  unfold decodeWord at h
  split at h
  · cases h
  · next ho =>
    split at h
    · cases h
    · next hf =>
      have hw := packFields_fields (not_not.mp ho) (not_not.mp hf)
      split at h
      case h_23 => cases h
      all_goals
        next hsel =>
        have hs := congrArg (BitVec.ofNat 5) hsel
        rw [BitVec.ofNat_toNat, BitVec.setWidth_eq] at hs
        first
          | (obtain ⟨hb, hr, rfl⟩ := decodeUnary_ok h
             rw [hb, hr, hs] at hw; exact hw)
          | (obtain ⟨hb, rfl⟩ := decodeBinary_ok h
             rw [hb, hs] at hw; exact hw)
          | (obtain rfl := decodeSelect_ok h
             rw [hs] at hw; exact hw)

end Sys2Proof
end

