-- ==== Sys2Proof/Laws/State.lean ====
section
/-!
SUPPORT. One lemma per field per update of the state, and the laws of reading and writing registers.
-/

namespace Sys2Proof.Machine

/-! ### Width -/

@[simp] theorem fit_rv64 (v : Word) : fit .rv64 v = v := rfl

theorem fit_rv32 (v : Word) : fit .rv32 v = (v.setWidth 32).setWidth 64 := rfl

@[simp] theorem fit_fit (x : Xlen) (v : Word) : fit x (fit x v) = fit x v := by
  cases x
  · simp [fit]
  · rfl

@[simp] theorem fit_zero (x : Xlen) : fit x 0#64 = 0#64 := by cases x <;> rfl

theorem fit_toNat (x : Xlen) (v : Word) : (fit x v).toNat = v.toNat % 2 ^ x.bits := by
  cases x
  · simp [fit, Xlen.bits]; omega
  · have := v.isLt
    simp only [fit, Xlen.bits]; omega

/-- A zero-extended 32-bit value has its width on either `XLEN`. -/
@[simp] theorem fit_setWidth (x : Xlen) (v : Word32) : fit x (v.setWidth 64) = v.setWidth 64 := by
  cases x
  · simp [fit]
  · rfl

/-- Only the low `XLEN` bits of a summand reach the `XLEN`-bit sum. -/
theorem fit_add_fit (x : Xlen) (a b : Word) : fit x (fit x a + b) = fit x (a + b) := by
  apply BitVec.eq_of_toNat_eq
  cases x
  · rw [fit_toNat, fit_toNat, BitVec.toNat_add, BitVec.toNat_add, fit_toNat]; simp [Xlen.bits]
  · simp

/-- A value below `2^XLEN` has its width. -/
theorem fit_of_lt {x : Xlen} {v : Word} (h : v.toNat < 2 ^ x.bits) : fit x v = v := by
  apply BitVec.eq_of_toNat_eq; rw [fit_toNat]; exact Nat.mod_eq_of_lt h

theorem nextPc_toNat (s : State) : s.nextPc.toNat = (s.pcValue.toNat + 4) % 2 ^ s.cfg.xlen.bits := by
  rw [State.nextPc, fit_toNat]
  cases s.cfg.xlen <;> simp [Xlen.bits]

/-! ### `writeReg` -/

section
variable (s : State) (r : Reg) (v : Word)

@[simp] theorem writeReg_cfg : (s.writeReg r v).cfg = s.cfg := by
  unfold State.writeReg; split <;> rfl

@[simp] theorem writeReg_program : (s.writeReg r v).program = s.program := by
  unfold State.writeReg; split <;> rfl

@[simp] theorem writeReg_pcStart : (s.writeReg r v).pcStart = s.pcStart := by
  unfold State.writeReg; split <;> rfl

@[simp] theorem writeReg_pc : (s.writeReg r v).pc = s.pc := by
  unfold State.writeReg; split <;> rfl

@[simp] theorem writeReg_wrapped : (s.writeReg r v).wrapped = s.wrapped := by
  unfold State.writeReg; split <;> rfl

@[simp] theorem writeReg_draws : (s.writeReg r v).draws = s.draws := by
  unfold State.writeReg; split <;> rfl

@[simp] theorem writeReg_zero : s.writeReg 0#5 v = s := by simp [State.writeReg]

@[simp] theorem writeReg_nextPc : (s.writeReg r v).nextPc = s.nextPc := by
  simp [State.nextPc, State.pcValue]

@[simp] theorem writeReg_pcCarries : (s.writeReg r v).pcCarries = s.pcCarries := by
  unfold State.pcCarries State.pcValue; rw [writeReg_cfg, writeReg_pc]

end

/-! ### `advancePc` -/

section
variable (s : State)

@[simp] theorem advancePc_cfg : s.advancePc.cfg = s.cfg := rfl
@[simp] theorem advancePc_program : s.advancePc.program = s.program := rfl
@[simp] theorem advancePc_pcStart : s.advancePc.pcStart = s.pcStart := rfl
@[simp] theorem advancePc_regs : s.advancePc.regs = s.regs := rfl
@[simp] theorem advancePc_draws : s.advancePc.draws = s.draws := rfl
@[simp] theorem advancePc_wrapped : s.advancePc.wrapped = s.pcCarries := rfl
@[simp] theorem advancePc_pc : s.advancePc.pc = s.nextPc := rfl
@[simp] theorem advancePc_readReg (r : Reg) : s.advancePc.readReg r = s.readReg r := rfl

@[simp] theorem advancePc_pcValue : s.advancePc.pcValue = s.nextPc := by
  simp [State.pcValue, State.nextPc]

/-- `pc` and its carry together are the exact sum `pc + 4` (R26, R27). -/
theorem advancePc_sum :
    s.advancePc.pcValue.toNat + (if s.advancePc.wrapped then 2 ^ s.cfg.xlen.bits else 0) = s.pcValue.toNat + 4 := by
  have h : s.pcValue.toNat < 2 ^ s.cfg.xlen.bits := by
    rw [State.pcValue, fit_toNat]; exact Nat.mod_lt _ (Nat.two_pow_pos _)
  rw [advancePc_pcValue, advancePc_wrapped, nextPc_toNat, State.pcCarries]
  have h4 : 4 < 2 ^ s.cfg.xlen.bits := by cases s.cfg.xlen <;> decide
  generalize 2 ^ s.cfg.xlen.bits = m at *
  by_cases hc : m ≤ s.pcValue.toNat + 4
  · rw [Nat.mod_eq_sub_mod hc, Nat.mod_eq_of_lt (by omega)]; simp [hc]
  · rw [Nat.mod_eq_of_lt (by omega)]; simp [hc]

end

/-! ### `countDraw` -/

section
variable (s : State)

@[simp] theorem countDraw_cfg : s.countDraw.cfg = s.cfg := rfl
@[simp] theorem countDraw_program : s.countDraw.program = s.program := rfl
@[simp] theorem countDraw_pcStart : s.countDraw.pcStart = s.pcStart := rfl
@[simp] theorem countDraw_pc : s.countDraw.pc = s.pc := rfl
@[simp] theorem countDraw_wrapped : s.countDraw.wrapped = s.wrapped := rfl
@[simp] theorem countDraw_pcCarries : s.countDraw.pcCarries = s.pcCarries := rfl
@[simp] theorem countDraw_regs : s.countDraw.regs = s.regs := rfl
@[simp] theorem countDraw_draws : s.countDraw.draws = s.draws + 1 := rfl
@[simp] theorem countDraw_readReg (r : Reg) : s.countDraw.readReg r = s.readReg r := rfl
@[simp] theorem countDraw_nextPc : s.countDraw.nextPc = s.nextPc := rfl

end

/-! ### Reading registers -/

@[simp] theorem readReg_zero (s : State) : s.readReg 0#5 = 0#64 := by simp [State.readReg]

@[simp] theorem fit_readReg (s : State) (r : Reg) : fit s.cfg.xlen (s.readReg r) = s.readReg r := by
  unfold State.readReg; split <;> simp

theorem readReg_writeReg_same (s : State) (r : Reg) (v : Word) :
    (s.writeReg r v).readReg r = if r = 0#5 then 0#64 else fit s.cfg.xlen v := by
  unfold State.readReg State.writeReg
  split <;> simp

theorem readReg_writeReg_other (s : State) {r q : Reg} (v : Word) (h : q ≠ r) :
    (s.writeReg r v).readReg q = s.readReg q := by
  have hne : r.toNat ≠ q.toNat := fun e => h (BitVec.eq_of_toNat_eq e.symm)
  by_cases hr : r = 0#5
  · simp [State.writeReg, hr]
  · by_cases hq : q = 0#5
    · simp [State.readReg, hq]
    · simp [State.readReg, State.writeReg, hr, hq, Vector.getElem_set_ne _ _ hne]

/-! ### `writeZext` and `writeW32` -/

section
variable (s : State) (r : Reg) (v : Word32)

/-- `W32` is one register write and, under `HI32 = any` on `XLEN = 64`, one draw. -/
theorem writeW32_eq : ∃ u, s.writeW32 r v = s.writeReg r u ∨ s.writeW32 r v = (s.writeReg r u).countDraw := by
  unfold State.writeW32
  split
  · exact ⟨_, .inl rfl⟩
  · exact ⟨_, .inl rfl⟩
  · exact ⟨_, .inl rfl⟩
  · exact ⟨_, .inr rfl⟩

@[simp] theorem writeW32_cfg : (s.writeW32 r v).cfg = s.cfg := by
  obtain ⟨u, h | h⟩ := writeW32_eq s r v <;> simp [h]

@[simp] theorem writeW32_program : (s.writeW32 r v).program = s.program := by
  obtain ⟨u, h | h⟩ := writeW32_eq s r v <;> simp [h]

@[simp] theorem writeW32_pcStart : (s.writeW32 r v).pcStart = s.pcStart := by
  obtain ⟨u, h | h⟩ := writeW32_eq s r v <;> simp [h]

@[simp] theorem writeW32_pc : (s.writeW32 r v).pc = s.pc := by
  obtain ⟨u, h | h⟩ := writeW32_eq s r v <;> simp [h]

@[simp] theorem writeW32_nextPc : (s.writeW32 r v).nextPc = s.nextPc := by
  obtain ⟨u, h | h⟩ := writeW32_eq s r v <;> simp [h]

theorem writeW32_draws : (s.writeW32 r v).draws =
    if s.cfg.xlen = .rv64 ∧ s.cfg.hi32 = .any then s.draws + 1 else s.draws := by
  unfold State.writeW32
  split <;> simp_all [State.writeZext]

end

theorem readReg_writeW32_other (s : State) {r q : Reg} (v : Word32) (h : q ≠ r) :
    (s.writeW32 r v).readReg q = s.readReg q := by
  obtain ⟨u, hw | hw⟩ := writeW32_eq s r v <;> simp [hw, readReg_writeReg_other s u h]

end Sys2Proof.Machine
end

