-- ==== Sys2Proof/Laws/Ops.lean ====
section
/-!
SUPPORT. For each shared operation, what it can do, said once: the one register write, `W32`, the frame `perform`, and `exec`.
-/

namespace Sys2Proof.Machine

/-! ### The register write -/

/-- The register write followed by the advance of `pc` changes one register and `pc`. -/
theorem writeReg_onlyReg (s : State) (rd : Reg) (v : Word) : OnlyReg s (s.writeReg rd v).advancePc rd where
  others r h := by simp [readReg_writeReg_other s v h]
  pc := by simp
  wrapped := by simp
  cfg := by simp
  program := by simp
  start := by simp

theorem writeReg_wrote (s : State) (rd : Reg) {v : Word} (h : fit s.cfg.xlen v = v) :
    Wrote s (s.writeReg rd v).advancePc rd v where
  dest := by simp [readReg_writeReg_same, h]
  frame := writeReg_onlyReg s rd v
  draws := by simp

theorem writeZext_wrote (s : State) (rd : Reg) (v : Word32) :
    Wrote s (s.writeZext rd v).advancePc rd (v.setWidth 64) :=
  writeReg_wrote s rd (by simp)

theorem countDraw_onlyReg {s u : State} {rd : Reg} (h : OnlyReg s u.advancePc rd) :
    OnlyReg s u.countDraw.advancePc rd where
  others r hr := by simpa using h.others r hr
  pc := by simpa using h.pc
  wrapped := by simpa using h.wrapped
  cfg := by simpa using h.cfg
  program := by simpa using h.program
  start := by simpa using h.start

/-! ### `W32` -/

theorem writeW32_onlyReg (s : State) (rd : Reg) (v : Word32) : OnlyReg s (s.writeW32 rd v).advancePc rd := by
  obtain ⟨u, h | h⟩ := writeW32_eq s rd v <;> rw [h]
  · exact writeReg_onlyReg s rd u
  · exact countDraw_onlyReg (writeReg_onlyReg s rd u)

/-- The destination of `W32`: its low word is the value, its high word what `HI32` says (R24). -/
theorem readReg_writeW32_same (s : State) {rd : Reg} (v : Word32) (h : rd ≠ 0#5) :
    word ((s.writeW32 rd v).readReg rd) 0 = v ∧ HighBits s.cfg v (word ((s.writeW32 rd v).readReg rd) 1) := by
  unfold State.writeW32 HighBits
  cases hx : s.cfg.xlen <;> cases hh : s.cfg.hi32 <;>
    simp [State.writeZext, readReg_writeReg_same, h, hx, word_signExtend_1]

theorem writeW32_wrote (s : State) (rd : Reg) (v : Word32) : Wrote32 s (s.writeW32 rd v).advancePc rd v where
  low := by
    split
    · next h => subst h; simp [word]
    · next h => simpa using (readReg_writeW32_same s v h).1
  high h := by simpa using (readReg_writeW32_same s v h).2
  frame := writeW32_onlyReg s rd v
  draws := by simp [writeW32_draws, Config.drawsHigh]

/-! ### The frame of an instruction -/

section
variable {i : Instr} {s t : State} {body : State → State}

theorem perform_available (h : available s.cfg i.mnemonic = true) :
    perform i s body = .next (body s).advancePc := by simp [perform, h]

theorem perform_unavailable (h : available s.cfg i.mnemonic = false) :
    perform i s body = .fault (.illegalInstruction s.pcValue (encode i)) := by simp [perform, h, raiseIllegal]

/-- An instruction that answers a next state is available, and the state is its body's, advanced. -/
theorem perform_next (h : perform i s body = .next t) :
    available s.cfg i.mnemonic = true ∧ t = (body s).advancePc := by
  unfold perform raiseIllegal at h
  split at h
  · next ha => exact ⟨ha, by injection h with h; exact h.symm⟩
  · cases h

end

/-- The hardware has a mnemonic exactly when neither ground of R182 for its absence holds. -/
theorem available_iff (c : Config) (m : Mnemonic) :
    available c m = true ↔ ¬ ((m.rv64Only = true ∧ c.xlen = .rv32) ∨ m ∉ c.impl) := by
  unfold available
  cases m.rv64Only <;> cases c.xlen <;> simp

/-- A mnemonic the hardware has is no `saes.v4.*` mnemonic on `XLEN = 32`. -/
theorem available_rv64 {c : Config} {m : Mnemonic} (h : available c m = true) (hm : m.rv64Only = true) :
    c.xlen = .rv64 := by
  cases hx : c.xlen
  · simp [available, hm, hx] at h
  · rfl

/-! ### Every instruction -/

/-- What the body of any instruction does: one write to its destination, of an `XLEN`-bit value or by `W32`. -/
inductive OneWrite (s : State) (rd : Reg) : State → Prop where
  | reg (v : Word) : OneWrite s rd (s.writeReg rd v)
  | w32 (v : Word32) : OneWrite s rd (s.writeW32 rd v)

theorem OneWrite.onlyReg {s u : State} {rd : Reg} (h : OneWrite s rd u) : OnlyReg s u.advancePc rd := by
  cases h with
  | reg v => exact writeReg_onlyReg s rd v
  | w32 v => exact writeW32_onlyReg s rd v

/-- Every instruction is its frame around one write to its destination (R17, R31, R33). -/
theorem exec_eq_perform (i : Instr) :
    ∃ body : State → State, (∀ s, OneWrite s i.rd (body s)) ∧ ∀ s, exec i s = perform i s body := by
  cases i <;> refine ⟨_, fun s => ?_, fun s => rfl⟩ <;> first | exact .reg _ | exact .w32 _

/-- An available instruction answers its one write, advanced. -/
theorem exec_available {i : Instr} {s : State} (h : available s.cfg i.mnemonic = true) :
    ∃ u, OneWrite s i.rd u ∧ exec i s = .next u.advancePc := by
  obtain ⟨body, hb, he⟩ := exec_eq_perform i
  exact ⟨body s, hb s, by rw [he, perform_available h]⟩

/-- An instruction the hardware lacks raises IllegalInstruction with the address and its word (R180, R182). -/
theorem exec_unavailable {i : Instr} {s : State} (h : available s.cfg i.mnemonic = false) :
    exec i s = .fault (.illegalInstruction s.pcValue (encode i)) := by
  obtain ⟨body, -, he⟩ := exec_eq_perform i
  rw [he, perform_unavailable h]

/-- What holds when an instruction answers a next state. -/
theorem exec_next {i : Instr} {s t : State} (h : exec i s = .next t) :
    available s.cfg i.mnemonic = true ∧ ∃ u, OneWrite s i.rd u ∧ t = u.advancePc := by
  obtain ⟨body, hb, he⟩ := exec_eq_perform i
  rw [he] at h
  exact ⟨(perform_next h).1, body s, hb s, (perform_next h).2⟩

end Sys2Proof.Machine
end

