-- ==== Sys2Proof/Laws/Instr.lean ====
section
/-!
SUPPORT. One equation per instruction: what `exec` answers when the hardware has the mnemonic, so that no proof unfolds a meaning.
-/

namespace Sys2Proof.Machine

variable {s : State} {rd rs1 rs2 : Reg} {bs : ByteSel}

theorem exec_v1Enc (h : available s.cfg .v1Enc = true) :
    exec (.v1Enc rd rs1) s = .next (s.writeZext rd
      (subLow aesSbox (s.readReg rs1))).advancePc := by
  unfold exec execV1Enc; exact perform_available h

theorem exec_v1Dec (h : available s.cfg .v1Dec = true) :
    exec (.v1Dec rd rs1) s = .next (s.writeZext rd
      (subLow invAesSbox (s.readReg rs1))).advancePc := by
  unfold exec execV1Dec; exact perform_available h

theorem exec_v2SubEnc (h : available s.cfg .v2SubEnc = true) :
    exec (.v2SubEnc rd rs1 rs2) s = .next (s.writeW32 rd
      (subPair aesSbox (s.readReg rs1) (s.readReg rs2))).advancePc := by
  unfold exec execV2SubEnc; exact perform_available h

theorem exec_v2SubDec (h : available s.cfg .v2SubDec = true) :
    exec (.v2SubDec rd rs1 rs2) s = .next (s.writeW32 rd
      (subPair invAesSbox (s.readReg rs1) (s.readReg rs2))).advancePc := by
  unfold exec execV2SubDec; exact perform_available h

theorem exec_v2MixEnc (h : available s.cfg .v2MixEnc = true) :
    exec (.v2MixEnc rd rs1 rs2) s = .next (s.writeW32 rd
      (mixPair s.cfg.mixRow0 mixCol (s.readReg rs1) (s.readReg rs2))).advancePc := by
  unfold exec execV2MixEnc; exact perform_available h

theorem exec_v2MixDec (h : available s.cfg .v2MixDec = true) :
    exec (.v2MixDec rd rs1 rs2) s = .next (s.writeW32 rd
      (mixPair s.cfg.mixRow0 invMixCol (s.readReg rs1) (s.readReg rs2))).advancePc := by
  unfold exec execV2MixDec; exact perform_available h

theorem exec_v3Encs (h : available s.cfg .v3Encs = true) :
    exec (.v3Encs rd rs1 rs2 bs) s = .next (s.writeW32 rd
      (selectResult aesSbox plainColumn bs (s.readReg rs1) (s.readReg rs2))).advancePc := by
  unfold exec execV3Encs; exact perform_available h

theorem exec_v3Encm (h : available s.cfg .v3Encm = true) :
    exec (.v3Encm rd rs1 rs2 bs) s = .next (s.writeW32 rd
      (selectResult id encColumn bs (s.readReg rs1) (s.readReg rs2))).advancePc := by
  unfold exec execV3Encm; exact perform_available h

theorem exec_v3Encsm (h : available s.cfg .v3Encsm = true) :
    exec (.v3Encsm rd rs1 rs2 bs) s = .next (s.writeW32 rd
      (selectResult aesSbox encColumn bs (s.readReg rs1) (s.readReg rs2))).advancePc := by
  unfold exec execV3Encsm; exact perform_available h

theorem exec_v3Decs (h : available s.cfg .v3Decs = true) :
    exec (.v3Decs rd rs1 rs2 bs) s = .next (s.writeW32 rd
      (selectResult invAesSbox plainColumn bs (s.readReg rs1) (s.readReg rs2))).advancePc := by
  unfold exec execV3Decs; exact perform_available h

theorem exec_v3Decm (h : available s.cfg .v3Decm = true) :
    exec (.v3Decm rd rs1 rs2 bs) s = .next (s.writeW32 rd
      (selectResult id decColumn bs (s.readReg rs1) (s.readReg rs2))).advancePc := by
  unfold exec execV3Decm; exact perform_available h

theorem exec_v3Decsm (h : available s.cfg .v3Decsm = true) :
    exec (.v3Decsm rd rs1 rs2 bs) s = .next (s.writeW32 rd
      (selectResult invAesSbox decColumn bs (s.readReg rs1) (s.readReg rs2))).advancePc := by
  unfold exec execV3Decsm; exact perform_available h

theorem exec_v4Sub (h : available s.cfg .v4Sub = true) :
    exec (.v4Sub rd rs1) s = .next (s.writeReg rd
      (subEight (s.readReg rs1))).advancePc := by
  unfold exec execV4Sub; exact perform_available h

theorem exec_v4Imix (h : available s.cfg .v4Imix = true) :
    exec (.v4Imix rd rs1) s = .next (s.writeReg rd
      (imixWords (s.readReg rs1))).advancePc := by
  unfold exec execV4Imix; exact perform_available h

theorem exec_v4EncsmLo (h : available s.cfg .v4EncsmLo = true) :
    exec (.v4EncsmLo rd rs1 rs2) s = .next (s.writeReg rd
      (lowHalf (v4Round (s.readReg rs1) (s.readReg rs2) false true))).advancePc := by
  unfold exec execV4EncsmLo; exact perform_available h

theorem exec_v4EncsmHi (h : available s.cfg .v4EncsmHi = true) :
    exec (.v4EncsmHi rd rs1 rs2) s = .next (s.writeReg rd
      (highHalf (v4Round (s.readReg rs1) (s.readReg rs2) false true))).advancePc := by
  unfold exec execV4EncsmHi; exact perform_available h

theorem exec_v4EncsLo (h : available s.cfg .v4EncsLo = true) :
    exec (.v4EncsLo rd rs1 rs2) s = .next (s.writeReg rd
      (lowHalf (v4Round (s.readReg rs1) (s.readReg rs2) false false))).advancePc := by
  unfold exec execV4EncsLo; exact perform_available h

theorem exec_v4EncsHi (h : available s.cfg .v4EncsHi = true) :
    exec (.v4EncsHi rd rs1 rs2) s = .next (s.writeReg rd
      (highHalf (v4Round (s.readReg rs1) (s.readReg rs2) false false))).advancePc := by
  unfold exec execV4EncsHi; exact perform_available h

theorem exec_v4DecsmLo (h : available s.cfg .v4DecsmLo = true) :
    exec (.v4DecsmLo rd rs1 rs2) s = .next (s.writeReg rd
      (lowHalf (v4Round (s.readReg rs1) (s.readReg rs2) true true))).advancePc := by
  unfold exec execV4DecsmLo; exact perform_available h

theorem exec_v4DecsmHi (h : available s.cfg .v4DecsmHi = true) :
    exec (.v4DecsmHi rd rs1 rs2) s = .next (s.writeReg rd
      (highHalf (v4Round (s.readReg rs1) (s.readReg rs2) true true))).advancePc := by
  unfold exec execV4DecsmHi; exact perform_available h

theorem exec_v4DecsLo (h : available s.cfg .v4DecsLo = true) :
    exec (.v4DecsLo rd rs1 rs2) s = .next (s.writeReg rd
      (lowHalf (v4Round (s.readReg rs1) (s.readReg rs2) true false))).advancePc := by
  unfold exec execV4DecsLo; exact perform_available h

theorem exec_v4DecsHi (h : available s.cfg .v4DecsHi = true) :
    exec (.v4DecsHi rd rs1 rs2) s = .next (s.writeReg rd
      (highHalf (v4Round (s.readReg rs1) (s.readReg rs2) true false))).advancePc := by
  unfold exec execV4DecsHi; exact perform_available h

end Sys2Proof.Machine
end

