-- ==== Sys2Proof/Laws/PerInstr.lean ====
section
/-!
SUPPORT. The family OpcodeMap, one lemma per constructor: the word an instruction encodes to fits the instruction's row of the
opcode map, `(w & mask) == match` (30_encoding.md R69).
-/

namespace Sys2Proof.Laws.OpcodeMap

/-- The word of the instruction fits the row of its mnemonic (R69). -/
def Statement (i : Instr) : Prop :=
  ∃ row, i.opcodeRow? = some row ∧ row.mnemonic = i.mnemonic ∧ encode i &&& row.mask = row.matchBits

theorem v1Enc (rd rs1 : Reg) : Statement (.v1Enc rd rs1) :=
  ⟨_, rfl, rfl, (packFields_maskUnary _ _ _ _ _).trans
    (show packFields 0#2 0#5 0#5 0#5 0#5 = 0x0000000B#32 by decide)⟩

theorem v1Dec (rd rs1 : Reg) : Statement (.v1Dec rd rs1) :=
  ⟨_, rfl, rfl, (packFields_maskUnary _ _ _ _ _).trans
    (show packFields 0#2 1#5 0#5 0#5 0#5 = 0x0200000B#32 by decide)⟩

theorem v2SubEnc (rd rs1 rs2 : Reg) : Statement (.v2SubEnc rd rs1 rs2) :=
  ⟨_, rfl, rfl, (packFields_maskBinary _ _ _ _ _).trans
    (show packFields 0#2 2#5 0#5 0#5 0#5 = 0x0400000B#32 by decide)⟩

theorem v2SubDec (rd rs1 rs2 : Reg) : Statement (.v2SubDec rd rs1 rs2) :=
  ⟨_, rfl, rfl, (packFields_maskBinary _ _ _ _ _).trans
    (show packFields 0#2 3#5 0#5 0#5 0#5 = 0x0600000B#32 by decide)⟩

theorem v2MixEnc (rd rs1 rs2 : Reg) : Statement (.v2MixEnc rd rs1 rs2) :=
  ⟨_, rfl, rfl, (packFields_maskBinary _ _ _ _ _).trans
    (show packFields 0#2 4#5 0#5 0#5 0#5 = 0x0800000B#32 by decide)⟩

theorem v2MixDec (rd rs1 rs2 : Reg) : Statement (.v2MixDec rd rs1 rs2) :=
  ⟨_, rfl, rfl, (packFields_maskBinary _ _ _ _ _).trans
    (show packFields 0#2 5#5 0#5 0#5 0#5 = 0x0A00000B#32 by decide)⟩

theorem v3Encs (rd rs1 rs2 : Reg) (bs : ByteSel) : Statement (.v3Encs rd rs1 rs2 bs) :=
  ⟨_, rfl, rfl, (packFields_maskSelect _ _ _ _ _).trans
    (show packFields 0#2 6#5 0#5 0#5 0#5 = 0x0C00000B#32 by decide)⟩

theorem v3Encm (rd rs1 rs2 : Reg) (bs : ByteSel) : Statement (.v3Encm rd rs1 rs2 bs) :=
  ⟨_, rfl, rfl, (packFields_maskSelect _ _ _ _ _).trans
    (show packFields 0#2 7#5 0#5 0#5 0#5 = 0x0E00000B#32 by decide)⟩

theorem v3Encsm (rd rs1 rs2 : Reg) (bs : ByteSel) : Statement (.v3Encsm rd rs1 rs2 bs) :=
  ⟨_, rfl, rfl, (packFields_maskSelect _ _ _ _ _).trans
    (show packFields 0#2 8#5 0#5 0#5 0#5 = 0x1000000B#32 by decide)⟩

theorem v3Decs (rd rs1 rs2 : Reg) (bs : ByteSel) : Statement (.v3Decs rd rs1 rs2 bs) :=
  ⟨_, rfl, rfl, (packFields_maskSelect _ _ _ _ _).trans
    (show packFields 0#2 9#5 0#5 0#5 0#5 = 0x1200000B#32 by decide)⟩

theorem v3Decm (rd rs1 rs2 : Reg) (bs : ByteSel) : Statement (.v3Decm rd rs1 rs2 bs) :=
  ⟨_, rfl, rfl, (packFields_maskSelect _ _ _ _ _).trans
    (show packFields 0#2 10#5 0#5 0#5 0#5 = 0x1400000B#32 by decide)⟩

theorem v3Decsm (rd rs1 rs2 : Reg) (bs : ByteSel) : Statement (.v3Decsm rd rs1 rs2 bs) :=
  ⟨_, rfl, rfl, (packFields_maskSelect _ _ _ _ _).trans
    (show packFields 0#2 11#5 0#5 0#5 0#5 = 0x1600000B#32 by decide)⟩

theorem v4Sub (rd rs1 : Reg) : Statement (.v4Sub rd rs1) :=
  ⟨_, rfl, rfl, (packFields_maskUnary _ _ _ _ _).trans
    (show packFields 0#2 12#5 0#5 0#5 0#5 = 0x1800000B#32 by decide)⟩

theorem v4Imix (rd rs1 : Reg) : Statement (.v4Imix rd rs1) :=
  ⟨_, rfl, rfl, (packFields_maskUnary _ _ _ _ _).trans
    (show packFields 0#2 13#5 0#5 0#5 0#5 = 0x1A00000B#32 by decide)⟩

theorem v4EncsmLo (rd rs1 rs2 : Reg) : Statement (.v4EncsmLo rd rs1 rs2) :=
  ⟨_, rfl, rfl, (packFields_maskBinary _ _ _ _ _).trans
    (show packFields 0#2 14#5 0#5 0#5 0#5 = 0x1C00000B#32 by decide)⟩

theorem v4EncsmHi (rd rs1 rs2 : Reg) : Statement (.v4EncsmHi rd rs1 rs2) :=
  ⟨_, rfl, rfl, (packFields_maskBinary _ _ _ _ _).trans
    (show packFields 0#2 15#5 0#5 0#5 0#5 = 0x1E00000B#32 by decide)⟩

theorem v4EncsLo (rd rs1 rs2 : Reg) : Statement (.v4EncsLo rd rs1 rs2) :=
  ⟨_, rfl, rfl, (packFields_maskBinary _ _ _ _ _).trans
    (show packFields 0#2 16#5 0#5 0#5 0#5 = 0x2000000B#32 by decide)⟩

theorem v4EncsHi (rd rs1 rs2 : Reg) : Statement (.v4EncsHi rd rs1 rs2) :=
  ⟨_, rfl, rfl, (packFields_maskBinary _ _ _ _ _).trans
    (show packFields 0#2 17#5 0#5 0#5 0#5 = 0x2200000B#32 by decide)⟩

theorem v4DecsmLo (rd rs1 rs2 : Reg) : Statement (.v4DecsmLo rd rs1 rs2) :=
  ⟨_, rfl, rfl, (packFields_maskBinary _ _ _ _ _).trans
    (show packFields 0#2 18#5 0#5 0#5 0#5 = 0x2400000B#32 by decide)⟩

theorem v4DecsmHi (rd rs1 rs2 : Reg) : Statement (.v4DecsmHi rd rs1 rs2) :=
  ⟨_, rfl, rfl, (packFields_maskBinary _ _ _ _ _).trans
    (show packFields 0#2 19#5 0#5 0#5 0#5 = 0x2600000B#32 by decide)⟩

theorem v4DecsLo (rd rs1 rs2 : Reg) : Statement (.v4DecsLo rd rs1 rs2) :=
  ⟨_, rfl, rfl, (packFields_maskBinary _ _ _ _ _).trans
    (show packFields 0#2 20#5 0#5 0#5 0#5 = 0x2800000B#32 by decide)⟩

theorem v4DecsHi (rd rs1 rs2 : Reg) : Statement (.v4DecsHi rd rs1 rs2) :=
  ⟨_, rfl, rfl, (packFields_maskBinary _ _ _ _ _).trans
    (show packFields 0#2 21#5 0#5 0#5 0#5 = 0x2A00000B#32 by decide)⟩

end Sys2Proof.Laws.OpcodeMap
end

