-- ==== Sys2Proof/Laws/Step.lean ====
section
/-!
SUPPORT. What a step can do, said once, and what a launch leaves.
-/

namespace Sys2Proof.Machine

/-- The step at a state that fetches `w` is what the decoder's answer on `w` makes of it (R183). -/
theorem stepWith_fetches (enc : Word32 → Except DecodeError Instr) {s : State} {w : Word32} (h : Fetches s w) :
    stepWith enc s = match enc w with
      | .error .foreignOpcode => .refused (.foreignOpcode w)
      | .error _ => raiseIllegal w s
      | .ok i => recordWord w (exec i s) := by
  unfold stepWith
  rw [h.1, h.2]; rfl

/-- A step at the end of the run answers `runEnded` (R212). -/
theorem step_runOver {s : State} (h : s.runOver = true) : step s = .fault .runEnded := by
  unfold step stepWith
  rw [h]; rfl

/-- A step that answers a next state is `exec` of the instruction that the fetched word decodes to (R183). -/
theorem step_next {s t : State} (h : step s = .next t) :
    ∃ w i, Fetches s w ∧ decodeWord w = .ok i ∧ exec i s = .next t := by
  unfold step stepWith at h
  split at h
  · cases h
  · next hend =>
    split at h
    · cases h
    · next w hw =>
      split at h
      · cases h
      · cases h
      · next i hi =>
        refine ⟨w, i, ⟨by simpa using hend, hw⟩, hi, ?_⟩
        unfold recordWord at h
        split at h
        · cases h
        · exact h

/-- A fetched word stands in the text at the offset of its address (R42). -/
theorem fetchWord_some {s : State} {a : Nat} {w : Word32} (h : s.fetchWord a = some w) :
    ∃ k, a = s.startValue.toNat + 4 * k ∧ s.program[k]? = some w := by
  unfold State.fetchWord at h
  split at h
  · next hc => exact ⟨_, by omega, h⟩
  · cases h

/-- What stands at the `k`-th place of the text is fetched at `PC_START + 4k` (R42). -/
theorem fetchWord_at (s : State) (k : Nat) : s.fetchWord (s.startValue.toNat + 4 * k) = s.program[k]? := by
  simp [State.fetchWord]

/-- Where a word stands at `pc`, the run is over only if `pc` is the end of the text and has wrapped (R212). -/
theorem runOver_of_fetch {s : State} {w : Word32} (h : s.fetchWord s.pcValue.toNat = some w) :
    s.runOver = (decide (s.pcValue = s.endPc) && s.wrapped) := by simp [State.runOver, h]

/-- Where no word stands at `pc`, the run is over exactly at the end of the text (R42, R212). -/
theorem runOver_of_no_fetch {s : State} (h : s.fetchWord s.pcValue.toNat = none) :
    s.runOver = decide (s.pcValue = s.endPc) := by simp [State.runOver, h]

/-- A launch that is not refused is admissible and leaves the state of R211. -/
theorem launch_next {l : Launch} {s : State} (h : launch l = .next s) : l.wf = true ∧ s = launchState l := by
  unfold launch at h
  split at h
  · cases h
  · split at h
    · cases h
    · split at h
      · cases h
      · next ha hf hc =>
        exact ⟨by simp_all [Launch.wf], by injection h with h; exact h.symm⟩

end Sys2Proof.Machine
end

