-- ==== Sys2Proof/Machine/Assembly.lean ====
section
/-!
DEFINITION. The assembler syntax (30_encoding.md R78, R79): the one spelling the spec gives each instruction. There are no
pseudo-instructions (R80).
-/

namespace Sys2Proof.Machine

/-- The mnemonic as the source prints it: "lower case with `.` separators" (R78). -/
def mnemonicText : Mnemonic → String
  | .v1Enc => "saes.v1.enc"
  | .v1Dec => "saes.v1.dec"
  | .v2SubEnc => "saes.v2.sub.enc"
  | .v2SubDec => "saes.v2.sub.dec"
  | .v2MixEnc => "saes.v2.mix.enc"
  | .v2MixDec => "saes.v2.mix.dec"
  | .v3Encs => "saes.v3.encs"
  | .v3Encm => "saes.v3.encm"
  | .v3Encsm => "saes.v3.encsm"
  | .v3Decs => "saes.v3.decs"
  | .v3Decm => "saes.v3.decm"
  | .v3Decsm => "saes.v3.decsm"
  | .v4Sub => "saes.v4.sub"
  | .v4Imix => "saes.v4.imix"
  | .v4EncsmLo => "saes.v4.encsm.lo"
  | .v4EncsmHi => "saes.v4.encsm.hi"
  | .v4EncsLo => "saes.v4.encs.lo"
  | .v4EncsHi => "saes.v4.encs.hi"
  | .v4DecsmLo => "saes.v4.decsm.lo"
  | .v4DecsmHi => "saes.v4.decsm.hi"
  | .v4DecsLo => "saes.v4.decs.lo"
  | .v4DecsHi => "saes.v4.decs.hi"

/-- A register operand is written `x0` to `x31` (R79). -/
def regText (r : Reg) : String := "x" ++ toString r.toNat

/-- The operands in the source's order: destination, first source, second source, byte select, "a decimal integer" (R78, R79). -/
def operandTexts (i : Instr) : List String :=
  [regText i.rd, regText i.rs1] ++ (i.rs2.map regText).toList ++ (i.bs.map fun b => toString b.toNat).toList

/-- The instruction as one line of assembly: "the mnemonic, then the operands separated by commas" (R78; log entry 18). -/
def assembly (i : Instr) : String :=
  mnemonicText i.mnemonic ++ " " ++ ", ".intercalate (operandTexts i)

end Sys2Proof.Machine
end

