-- ==== Sys2Proof/Tests/Slice0.lean ====
section
/-!
SUPPORT. The model's own tests: ill-formed terms refused, words decoded, single steps on the vectors of 95_test_vectors.md, and
for each statement with hypotheses a state and operands that meet them.
-/

namespace Sys2Proof.Tests

open Sys2Proof.Machine Sys2Proof.Statements

/-! ### Ill-formed terms are refused -/

theorem test_wf_v4_on_rv32 : (Instr.v4Sub 10#5 11#5).wellFormed .rv32 = false := by decide

theorem test_wf_v4_on_rv64 : (Instr.v4Sub 10#5 11#5).wellFormed .rv64 = true := by decide

theorem test_wf_impl_out_of_order :
    Config.implCanonical { Config.standard .rv64 with impl := [.v1Dec, .v1Enc] } = false := by decide

theorem test_wf_impl_twice :
    Config.implCanonical { Config.standard .rv64 with impl := [.v1Enc, .v1Enc] } = false := by decide

theorem test_wf_impl_v4_on_rv32 :
    Config.implAllowed { Config.standard .rv32 with impl := [.v1Enc, .v4Sub] } = false := by decide

theorem test_wf_standard : Config.wf (Config.standard .rv32) = true ∧ Config.wf (Config.standard .rv64) = true := by
  decide

/-- A launch of `n` words from `a`. -/
def launchOf (x : Xlen) (a : Word) (n : Nat) : Launch :=
  { cfg := Config.standard x, program := List.replicate n 0x0000000B#32, pcStart := a, xStart := [(5#5, 0x55#64)] }

theorem test_wf_launch_misaligned : (launchOf .rv64 2#64 1).aligned = false := by decide

theorem test_wf_launch_too_long : (launchOf .rv32 0xFFFFFFFC#64 2).textFits = false := by decide

theorem test_wf_launch_just_fits : (launchOf .rv32 0xFFFFFFFC#64 1).wf = true := by decide

/-! ### Small readers of outcomes -/

def nextOf : Host.Outcome State Fault Refusal → Option State
  | .next t => some t
  | _ => none

def faultOf : Host.Outcome State Fault Refusal → Option Fault
  | .fault f => some f
  | _ => none

def refusalOf : Host.Outcome State Fault Refusal → Option Refusal
  | .refused r => some r
  | _ => none

def goesOn (o : Host.Outcome State Fault Refusal) : Bool := (nextOf o).isSome

theorem next_of_goesOn {o : Host.Outcome State Fault Refusal} (h : goesOn o = true) : ∃ t, o = .next t := by
  cases o with
  | next t => exact ⟨t, rfl⟩
  | fault _ => cases h
  | refused _ => cases h

/-- `x11 = a`, `x12 = b`, the other registers 0; `pc = PC_START = 0x1000` with the one-word program `w`. -/
def held (c : Config) (a b : Word) (w : Word32 := 0x0005850B#32) : State :=
  (({ State.reset with cfg := c, program := [w], pcStart := 0x1000#64, pc := 0x1000#64 }).writeReg 11#5 a).writeReg 12#5 b

def rv32 : Config := Config.standard .rv32
def rv64 : Config := Config.standard .rv64

/-- Register `x10` after the instruction, on `x11 = a` and `x12 = b`. -/
def x10After (c : Config) (i : Instr) (a b : Word) : Option Word :=
  (nextOf (exec i (held c a b))).map fun t => t.readReg 10#5

/-- Register `x10` after one step from `x11 = a` and `x12 = b` on the word `w`. -/
def x10Stepped (c : Config) (w : Word32) (a b : Word) : Option Word :=
  (nextOf (step (held c a b w))).map fun t => t.readReg 10#5

/-! ### Decoding: 95_test_vectors.md section 2.6, `rd = x10`, `rs1 = x11`, `rs2 = x12`, `bs = 2` -/

theorem test_decode_v1Enc :
    (0b00#2 ++ 0b00000#5 ++ 0b00000#5 ++ 0b01011#5 ++ 0b000#3 ++ 0b01010#5 ++ 0b0001011#7 : Word32) = 0x0005850B#32 ∧
      decodeWord 0x0005850B#32 = .ok (.v1Enc 10#5 11#5) ∧ encode (.v1Enc 10#5 11#5) = 0x0005850B#32 := by
  exact ⟨by decide, rfl, by decide⟩

theorem test_decode_v1Dec :
    (0b00#2 ++ 0b00001#5 ++ 0b00000#5 ++ 0b01011#5 ++ 0b000#3 ++ 0b01010#5 ++ 0b0001011#7 : Word32) = 0x0205850B#32 ∧
      decodeWord 0x0205850B#32 = .ok (.v1Dec 10#5 11#5) ∧ encode (.v1Dec 10#5 11#5) = 0x0205850B#32 := by
  exact ⟨by decide, rfl, by decide⟩

theorem test_decode_v2SubEnc :
    (0b00#2 ++ 0b00010#5 ++ 0b01100#5 ++ 0b01011#5 ++ 0b000#3 ++ 0b01010#5 ++ 0b0001011#7 : Word32) = 0x04C5850B#32 ∧
      decodeWord 0x04C5850B#32 = .ok (.v2SubEnc 10#5 11#5 12#5) ∧ encode (.v2SubEnc 10#5 11#5 12#5) = 0x04C5850B#32 := by
  exact ⟨by decide, rfl, by decide⟩

theorem test_decode_v2SubDec :
    (0b00#2 ++ 0b00011#5 ++ 0b01100#5 ++ 0b01011#5 ++ 0b000#3 ++ 0b01010#5 ++ 0b0001011#7 : Word32) = 0x06C5850B#32 ∧
      decodeWord 0x06C5850B#32 = .ok (.v2SubDec 10#5 11#5 12#5) ∧ encode (.v2SubDec 10#5 11#5 12#5) = 0x06C5850B#32 := by
  exact ⟨by decide, rfl, by decide⟩

theorem test_decode_v2MixEnc :
    (0b00#2 ++ 0b00100#5 ++ 0b01100#5 ++ 0b01011#5 ++ 0b000#3 ++ 0b01010#5 ++ 0b0001011#7 : Word32) = 0x08C5850B#32 ∧
      decodeWord 0x08C5850B#32 = .ok (.v2MixEnc 10#5 11#5 12#5) ∧ encode (.v2MixEnc 10#5 11#5 12#5) = 0x08C5850B#32 := by
  exact ⟨by decide, rfl, by decide⟩

theorem test_decode_v2MixDec :
    (0b00#2 ++ 0b00101#5 ++ 0b01100#5 ++ 0b01011#5 ++ 0b000#3 ++ 0b01010#5 ++ 0b0001011#7 : Word32) = 0x0AC5850B#32 ∧
      decodeWord 0x0AC5850B#32 = .ok (.v2MixDec 10#5 11#5 12#5) ∧ encode (.v2MixDec 10#5 11#5 12#5) = 0x0AC5850B#32 := by
  exact ⟨by decide, rfl, by decide⟩

theorem test_decode_v3Encs :
    (0b10#2 ++ 0b00110#5 ++ 0b01100#5 ++ 0b01011#5 ++ 0b000#3 ++ 0b01010#5 ++ 0b0001011#7 : Word32) = 0x8CC5850B#32 ∧
      decodeWord 0x8CC5850B#32 = .ok (.v3Encs 10#5 11#5 12#5 2#2) ∧ encode (.v3Encs 10#5 11#5 12#5 2#2) = 0x8CC5850B#32 := by
  exact ⟨by decide, rfl, by decide⟩

theorem test_decode_v3Encm :
    (0b10#2 ++ 0b00111#5 ++ 0b01100#5 ++ 0b01011#5 ++ 0b000#3 ++ 0b01010#5 ++ 0b0001011#7 : Word32) = 0x8EC5850B#32 ∧
      decodeWord 0x8EC5850B#32 = .ok (.v3Encm 10#5 11#5 12#5 2#2) ∧ encode (.v3Encm 10#5 11#5 12#5 2#2) = 0x8EC5850B#32 := by
  exact ⟨by decide, rfl, by decide⟩

theorem test_decode_v3Encsm :
    (0b10#2 ++ 0b01000#5 ++ 0b01100#5 ++ 0b01011#5 ++ 0b000#3 ++ 0b01010#5 ++ 0b0001011#7 : Word32) = 0x90C5850B#32 ∧
      decodeWord 0x90C5850B#32 = .ok (.v3Encsm 10#5 11#5 12#5 2#2) ∧ encode (.v3Encsm 10#5 11#5 12#5 2#2) = 0x90C5850B#32 := by
  exact ⟨by decide, rfl, by decide⟩

theorem test_decode_v3Decs :
    (0b10#2 ++ 0b01001#5 ++ 0b01100#5 ++ 0b01011#5 ++ 0b000#3 ++ 0b01010#5 ++ 0b0001011#7 : Word32) = 0x92C5850B#32 ∧
      decodeWord 0x92C5850B#32 = .ok (.v3Decs 10#5 11#5 12#5 2#2) ∧ encode (.v3Decs 10#5 11#5 12#5 2#2) = 0x92C5850B#32 := by
  exact ⟨by decide, rfl, by decide⟩

theorem test_decode_v3Decm :
    (0b10#2 ++ 0b01010#5 ++ 0b01100#5 ++ 0b01011#5 ++ 0b000#3 ++ 0b01010#5 ++ 0b0001011#7 : Word32) = 0x94C5850B#32 ∧
      decodeWord 0x94C5850B#32 = .ok (.v3Decm 10#5 11#5 12#5 2#2) ∧ encode (.v3Decm 10#5 11#5 12#5 2#2) = 0x94C5850B#32 := by
  exact ⟨by decide, rfl, by decide⟩

theorem test_decode_v3Decsm :
    (0b10#2 ++ 0b01011#5 ++ 0b01100#5 ++ 0b01011#5 ++ 0b000#3 ++ 0b01010#5 ++ 0b0001011#7 : Word32) = 0x96C5850B#32 ∧
      decodeWord 0x96C5850B#32 = .ok (.v3Decsm 10#5 11#5 12#5 2#2) ∧ encode (.v3Decsm 10#5 11#5 12#5 2#2) = 0x96C5850B#32 := by
  exact ⟨by decide, rfl, by decide⟩

theorem test_decode_v4Sub :
    (0b00#2 ++ 0b01100#5 ++ 0b00000#5 ++ 0b01011#5 ++ 0b000#3 ++ 0b01010#5 ++ 0b0001011#7 : Word32) = 0x1805850B#32 ∧
      decodeWord 0x1805850B#32 = .ok (.v4Sub 10#5 11#5) ∧ encode (.v4Sub 10#5 11#5) = 0x1805850B#32 := by
  exact ⟨by decide, rfl, by decide⟩

theorem test_decode_v4Imix :
    (0b00#2 ++ 0b01101#5 ++ 0b00000#5 ++ 0b01011#5 ++ 0b000#3 ++ 0b01010#5 ++ 0b0001011#7 : Word32) = 0x1A05850B#32 ∧
      decodeWord 0x1A05850B#32 = .ok (.v4Imix 10#5 11#5) ∧ encode (.v4Imix 10#5 11#5) = 0x1A05850B#32 := by
  exact ⟨by decide, rfl, by decide⟩

theorem test_decode_v4EncsmLo :
    (0b00#2 ++ 0b01110#5 ++ 0b01100#5 ++ 0b01011#5 ++ 0b000#3 ++ 0b01010#5 ++ 0b0001011#7 : Word32) = 0x1CC5850B#32 ∧
      decodeWord 0x1CC5850B#32 = .ok (.v4EncsmLo 10#5 11#5 12#5) ∧ encode (.v4EncsmLo 10#5 11#5 12#5) = 0x1CC5850B#32 := by
  exact ⟨by decide, rfl, by decide⟩

theorem test_decode_v4EncsmHi :
    (0b00#2 ++ 0b01111#5 ++ 0b01100#5 ++ 0b01011#5 ++ 0b000#3 ++ 0b01010#5 ++ 0b0001011#7 : Word32) = 0x1EC5850B#32 ∧
      decodeWord 0x1EC5850B#32 = .ok (.v4EncsmHi 10#5 11#5 12#5) ∧ encode (.v4EncsmHi 10#5 11#5 12#5) = 0x1EC5850B#32 := by
  exact ⟨by decide, rfl, by decide⟩

theorem test_decode_v4EncsLo :
    (0b00#2 ++ 0b10000#5 ++ 0b01100#5 ++ 0b01011#5 ++ 0b000#3 ++ 0b01010#5 ++ 0b0001011#7 : Word32) = 0x20C5850B#32 ∧
      decodeWord 0x20C5850B#32 = .ok (.v4EncsLo 10#5 11#5 12#5) ∧ encode (.v4EncsLo 10#5 11#5 12#5) = 0x20C5850B#32 := by
  exact ⟨by decide, rfl, by decide⟩

theorem test_decode_v4EncsHi :
    (0b00#2 ++ 0b10001#5 ++ 0b01100#5 ++ 0b01011#5 ++ 0b000#3 ++ 0b01010#5 ++ 0b0001011#7 : Word32) = 0x22C5850B#32 ∧
      decodeWord 0x22C5850B#32 = .ok (.v4EncsHi 10#5 11#5 12#5) ∧ encode (.v4EncsHi 10#5 11#5 12#5) = 0x22C5850B#32 := by
  exact ⟨by decide, rfl, by decide⟩

theorem test_decode_v4DecsmLo :
    (0b00#2 ++ 0b10010#5 ++ 0b01100#5 ++ 0b01011#5 ++ 0b000#3 ++ 0b01010#5 ++ 0b0001011#7 : Word32) = 0x24C5850B#32 ∧
      decodeWord 0x24C5850B#32 = .ok (.v4DecsmLo 10#5 11#5 12#5) ∧ encode (.v4DecsmLo 10#5 11#5 12#5) = 0x24C5850B#32 := by
  exact ⟨by decide, rfl, by decide⟩

theorem test_decode_v4DecsmHi :
    (0b00#2 ++ 0b10011#5 ++ 0b01100#5 ++ 0b01011#5 ++ 0b000#3 ++ 0b01010#5 ++ 0b0001011#7 : Word32) = 0x26C5850B#32 ∧
      decodeWord 0x26C5850B#32 = .ok (.v4DecsmHi 10#5 11#5 12#5) ∧ encode (.v4DecsmHi 10#5 11#5 12#5) = 0x26C5850B#32 := by
  exact ⟨by decide, rfl, by decide⟩

theorem test_decode_v4DecsLo :
    (0b00#2 ++ 0b10100#5 ++ 0b01100#5 ++ 0b01011#5 ++ 0b000#3 ++ 0b01010#5 ++ 0b0001011#7 : Word32) = 0x28C5850B#32 ∧
      decodeWord 0x28C5850B#32 = .ok (.v4DecsLo 10#5 11#5 12#5) ∧ encode (.v4DecsLo 10#5 11#5 12#5) = 0x28C5850B#32 := by
  exact ⟨by decide, rfl, by decide⟩

theorem test_decode_v4DecsHi :
    (0b00#2 ++ 0b10101#5 ++ 0b01100#5 ++ 0b01011#5 ++ 0b000#3 ++ 0b01010#5 ++ 0b0001011#7 : Word32) = 0x2AC5850B#32 ∧
      decodeWord 0x2AC5850B#32 = .ok (.v4DecsHi 10#5 11#5 12#5) ∧ encode (.v4DecsHi 10#5 11#5 12#5) = 0x2AC5850B#32 := by
  exact ⟨by decide, rfl, by decide⟩

theorem test_decode_further :
    decodeWord 0x0000000B#32 = .ok (.v1Enc 0#5 0#5) ∧ decodeWord 0xD1FF8F8B#32 = .ok (.v3Encsm 31#5 31#5 31#5 3#2) ∧
      decodeWord 0x0C62800B#32 = .ok (.v3Encs 0#5 5#5 6#5 0#2) ∧ decodeWord 0x2BFF8F8B#32 = .ok (.v4DecsHi 31#5 31#5 31#5) ∧
      decodeWord 0x1A01008B#32 = .ok (.v4Imix 1#5 2#5) := by
  exact ⟨rfl, rfl, rfl, rfl, rfl⟩

/-- The unassigned and the foreign words of section 2.6, each refused by its name. -/
theorem test_decode_rejects :
    decodeWord 0x2C00000B#32 = .error .unassignedSel ∧ decodeWord 0xFFFF8F8B#32 = .error .unassignedSel ∧
      decodeWord 0x0015850B#32 = .error .rs2NotZero ∧ decodeWord 0x44C5850B#32 = .error .topBitsNotZero ∧
      decodeWord 0x0CC5950B#32 = .error .funct3NotZero ∧ decodeWord 0x9805850B#32 = .error .topBitsNotZero ∧
      decodeWord 0x00000013#32 = .error .foreignOpcode ∧ decodeWord 0x00000000#32 = .error .foreignOpcode := by
  exact ⟨rfl, rfl, rfl, rfl, rfl, rfl, rfl, rfl⟩

/-- R44: the bytes of `saes.v4.imix x1, x2`, lowest address first. -/
theorem test_decode_bytes :
    decodeBytes [0x8B#8, 0x00#8, 0x01#8, 0x1A#8, 0xFF#8] = .ok (.v4Imix 1#5 2#5, [0xFF#8]) ∧
      decodeBytes [0x8B#8, 0x00#8, 0x01#8] = .error .truncated ∧
      encodeBytes (.v4Imix 1#5 2#5) = [0x8B#8, 0x00#8, 0x01#8, 0x1A#8] := by
  exact ⟨rfl, rfl, by decide⟩

theorem test_decode_table_word :
    decodeTableWord 32 0x1805850B = some (.v4Sub 10#5 11#5) ∧ decodeTableWord 32 0x00000013 = none ∧
      decodeTableWord 16 0x1805850B = some (.v1Enc 10#5 1#5) ∧ decodeTableWord 7 0xB = some (.v1Enc 0#5 0#5) := by
  decide

/-- Every row of the opcode map is disjoint from every other: no word fits two. -/
theorem test_opcode_map_disjoint :
    opcodeMap.Pairwise fun p q => p.matchBits &&& (p.mask &&& q.mask) ≠ q.matchBits &&& (p.mask &&& q.mask) := by decide

/-- R78, R79 and the assembly column of section 2.6. -/
theorem test_assembly :
    assembly (.v1Enc 10#5 11#5) = "saes.v1.enc x10, x11" ∧ assembly (.v3Encm 10#5 11#5 12#5 2#2) = "saes.v3.encm x10, x11, x12, 2" ∧
      assembly (.v4DecsHi 31#5 31#5 31#5) = "saes.v4.decs.hi x31, x31, x31" := by decide

/-! ### The AES functions: 95_test_vectors.md section 2.1 -/

theorem test_sbox :
    [0x00#8, 0x01#8, 0x10#8, 0x11#8, 0x53#8, 0x63#8, 0x7C#8, 0x80#8, 0xCA#8, 0xFE#8, 0xFF#8].map aesSbox =
      [0x63#8, 0x7C#8, 0xCA#8, 0x82#8, 0xED#8, 0xFB#8, 0x10#8, 0xCD#8, 0x74#8, 0xBB#8, 0x16#8] := by decide

theorem test_inv_sbox :
    [0x00#8, 0x01#8, 0x10#8, 0x11#8, 0x53#8, 0x63#8, 0x7C#8, 0x80#8, 0xCA#8, 0xFE#8, 0xFF#8].map invAesSbox =
      [0x52#8, 0x09#8, 0x7C#8, 0xE3#8, 0x50#8, 0x00#8, 0x01#8, 0x3A#8, 0x10#8, 0x0C#8, 0x7D#8] := by decide

theorem test_xtime :
    [0x00#8, 0x01#8, 0x57#8, 0xAE#8, 0x47#8, 0x8E#8, 0x7F#8, 0x80#8, 0xFF#8].map xtime =
      [0x00#8, 0x02#8, 0xAE#8, 0x47#8, 0x8E#8, 0x07#8, 0xFE#8, 0x1B#8, 0xE5#8] := by decide

theorem test_gfmul :
    [1#8, 2#8, 3#8, 9#8, 11#8, 13#8, 14#8].map (gfmul 0x57#8) = [0x57#8, 0xAE#8, 0xF9#8, 0xD9#8, 0x77#8, 0x9E#8, 0x67#8] ∧
      [1#8, 2#8, 3#8, 9#8, 11#8, 13#8, 14#8].map (gfmul 0xFF#8) = [0xFF#8, 0xE5#8, 0x1A#8, 0x46#8, 0xA3#8, 0x97#8, 0x8D#8] ∧
      gfmul 0x57#8 0x83#8 = 0xC1#8 ∧ gfmul 0x57#8 0x13#8 = 0xFE#8 := by decide

theorem test_rotl32 :
    [0, 8, 16, 24].map (rotl32 0xA56363C6#32) = [0xA56363C6#32, 0x6363C6A5#32, 0x63C6A563#32, 0xC6A56363#32] ∧
      rotl32 0x80000001#32 8 = 0x00000180#32 := by decide

theorem test_mix_col :
    mixCol 0x00000001#32 = 0x03010102#32 ∧ mixCol 0x01000000#32 = 0x02030101#32 ∧ mixCol 0x455313DB#32 = 0xBCA14D8E#32 ∧
      invMixCol 0x00000001#32 = 0x0B0D090E#32 ∧ invMixCol 0x01000000#32 = 0x0E0B0D09#32 ∧
      invMixCol 0x455313DB#32 = 0x551DA432#32 := by decide

/-- The state with `b(i) = 0x10 * i` under the two row shifts. -/
theorem test_shift_rows :
    shiftRows 0xF0E0D0C0B0A090807060504030201000#128 = 0xB06010C07020D08030E09040F0A05000#128 ∧
      invShiftRows 0xF0E0D0C0B0A090807060504030201000#128 = 0x306090C0F0205080B0E0104070A0D000#128 := by decide

/-! ### Single instructions: 95_test_vectors.md sections 2.2 to 2.5 -/

theorem test_v1Enc :
    x10After rv32 (.v1Enc 10#5 11#5) 0x03020100#64 0#64 = some 0x7B777C63#64 ∧
      x10After rv64 (.v1Enc 10#5 11#5) 0xFFFFFFFF03020100#64 0#64 = some 0x7B777C63#64 ∧
      x10After rv64 (.v1Enc 10#5 11#5) 0xDEADBEEF#64 0#64 = some 0x1D95AEDF#64 := by decide

theorem test_v1Dec :
    x10After rv32 (.v1Dec 10#5 11#5) 0x03020100#64 0#64 = some 0xD56A0952#64 ∧
      x10After rv64 (.v1Dec 10#5 11#5) 0xFFFFFFFF03020100#64 0#64 = some 0xD56A0952#64 ∧
      x10After rv64 (.v1Dec 10#5 11#5) 0xDEADBEEF#64 0#64 = some 0x9C185A61#64 := by decide

theorem test_v2SubEnc :
    x10After rv32 (.v2SubEnc 10#5 11#5 12#5) 0x33221100#64 0x77665544#64 = some 0xF593FC63#64 ∧
      x10After rv64 (.v2SubEnc 10#5 11#5 12#5) 0xFFFFFFFF#64 0x00000000#64 = some 0x63166316#64 ∧
      x10After rv32 (.v2SubEnc 10#5 11#5 12#5) 0xA0B0C0D0#64 0xA0B0C0D0#64 = some 0xE0E7BA70#64 := by decide

theorem test_v2SubDec :
    x10After rv32 (.v2SubDec 10#5 11#5 12#5) 0x33221100#64 0x77665544#64 = some 0x0294ED52#64 ∧
      x10After rv64 (.v2SubDec 10#5 11#5 12#5) 0xFFFFFFFF#64 0x00000000#64 = some 0x527D527D#64 ∧
      x10After rv32 (.v2SubDec 10#5 11#5 12#5) 0xA0B0C0D0#64 0xA0B0C0D0#64 = some 0x47FC1F60#64 := by decide

theorem test_v2MixEnc :
    x10After rv32 (.v2MixEnc 10#5 11#5 12#5) 0xAAAA13DB#64 0x4553BBBB#64 = some 0xBCA14D8E#64 ∧
      x10After rv64 (.v2MixEnc 10#5 11#5 12#5) 0x00000100#64 0x00000000#64 = some 0x01010203#64 ∧
      x10After rv32 (.v2MixEnc 10#5 11#5 12#5) 0x00000000#64 0x00010000#64 = some 0x01020301#64 := by decide

theorem test_v2MixDec :
    x10After rv32 (.v2MixDec 10#5 11#5 12#5) 0xAAAA13DB#64 0x4553BBBB#64 = some 0x551DA432#64 ∧
      x10After rv64 (.v2MixDec 10#5 11#5 12#5) 0x00000100#64 0x00000000#64 = some 0x0D090E0B#64 ∧
      x10After rv32 (.v2MixDec 10#5 11#5 12#5) 0x00000000#64 0x00010000#64 = some 0x090E0B0D#64 := by decide

def rv64Sext : Config := { rv64 with hi32 := .sext }
def rv64Any : Config := { rv64 with hi32 := .any }
def rv64T3 : Config := { rv64 with mixRow0 := .t3 }

/-- Section 2.3: the upper half of the result by `HI32`; the upper halves of the sources are ignored. -/
theorem test_v2MixEnc_hi32 :
    x10After rv64 (.v2MixEnc 10#5 11#5 12#5) 0x99999999AAAA13DB#64 0x888888884553BBBB#64 = some 0x00000000BCA14D8E#64 ∧
      x10After rv64Sext (.v2MixEnc 10#5 11#5 12#5) 0x99999999AAAA13DB#64 0x888888884553BBBB#64 =
        some 0xFFFFFFFFBCA14D8E#64 := by decide

/-- Section 2.7: under `HI32 = any` the low half is fixed, and the draw is counted. -/
theorem test_v2SubEnc_any :
    (∃ t, exec (.v2SubEnc 10#5 0#5 0#5) (held rv64Any 0#64 0#64) = .next t ∧ word (t.readReg 10#5) 0 = 0x63636363#32 ∧
      t.draws = 1) := by
  refine ⟨_, exec_v2SubEnc (by decide), ?_, by simp [writeW32_draws, held, rv64Any, rv64, Config.standard, State.reset]⟩
  have h := (writeW32_wrote (held rv64Any 0#64 0#64) 10#5
    (subPair aesSbox ((held rv64Any 0#64 0#64).readReg 0#5) ((held rv64Any 0#64 0#64).readReg 0#5))).low
  rw [h]; decide

/-- R124: the other reading of the row order. -/
theorem test_v2Mix_t3 :
    x10After rv64T3 (.v2MixEnc 10#5 11#5 12#5) 0x000013DB#64 0x45530000#64 = some 0xB70D4622#64 ∧
      x10After rv64T3 (.v2MixDec 10#5 11#5 12#5) 0x000013DB#64 0x45530000#64 = some 0x5EB1AF9E#64 := by decide

/-- The four results of a Variant 3 instruction, by byte select. -/
def allSelects (c : Config) (i : ByteSel → Instr) (a b : Word) : List (Option Word) :=
  [0#2, 1#2, 2#2, 3#2].map fun bs => x10After c (i bs) a b

theorem test_v3Encs :
    allSelects rv64 (.v3Encs 10#5 11#5 12#5 ·) 0x1111111103020100#64 0x22222222FFFFFFFF#64 =
      [some 0xFFFFFF9C#64, some 0xFFFF83FF#64, some 0xFF88FFFF#64, some 0x84FFFFFF#64] ∧
    allSelects rv32 (.v3Encs 10#5 11#5 12#5 ·) 0x53000000#64 0x12345678#64 =
      [some 0x1234561B#64, some 0x12343578#64, some 0x12575678#64, some 0xFF345678#64] := by decide

theorem test_v3Encm :
    allSelects rv64 (.v3Encm 10#5 11#5 12#5 ·) 0x1111111103020100#64 0x22222222FFFFFFFF#64 =
      [some 0xFFFFFFFF#64, some 0xFEFEFDFC#64, some 0xFDFBF9FD#64, some 0xF9FAFCFC#64] ∧
    allSelects rv32 (.v3Encm 10#5 11#5 12#5 ·) 0x53000000#64 0x12345678#64 =
      [some 0x12345678#64, some 0x12345678#64, some 0x12345678#64, some 0xB4C1052B#64] := by decide

theorem test_v3Encsm :
    allSelects rv64 (.v3Encsm 10#5 11#5 12#5 ·) 0x1111111103020100#64 0x22222222FFFFFFFF#64 =
      [some 0x5A9C9C39#64, some 0x8383077B#64, some 0x88116688#64, some 0x09728484#64] ∧
    allSelects rv32 (.v3Encsm 10#5 11#5 12#5 ·) 0x53000000#64 0x12345678#64 =
      [some 0xB75735BE#64, some 0x715790DD#64, some 0x71F2F31B#64, some 0xD318BB95#64] := by decide

theorem test_v3Decs :
    allSelects rv64 (.v3Decs 10#5 11#5 12#5 ·) 0x1111111103020100#64 0x22222222FFFFFFFF#64 =
      [some 0xFFFFFFAD#64, some 0xFFFFF6FF#64, some 0xFF95FFFF#64, some 0x2AFFFFFF#64] ∧
    allSelects rv32 (.v3Decs 10#5 11#5 12#5 ·) 0x53000000#64 0x12345678#64 =
      [some 0x1234562A#64, some 0x12340478#64, some 0x12665678#64, some 0x42345678#64] := by decide

theorem test_v3Decm :
    allSelects rv64 (.v3Decm 10#5 11#5 12#5 ·) 0x1111111103020100#64 0x22222222FFFFFFFF#64 =
      [some 0xFFFFFFFF#64, some 0xF2F6F1F4#64, some 0xEDE3E9E5#64, some 0xEDE2E8E4#64] ∧
    allSelects rv32 (.v3Decm 10#5 11#5 12#5 ·) 0x53000000#64 0x12345678#64 =
      [some 0x12345678#64, some 0x12345678#64, some 0x12345678#64, some 0x4D6FFC85#64] := by decide

theorem test_v3Decsm :
    allSelects rv64 (.v3Decsm 10#5 11#5 12#5 ·) 0x1111111103020100#64 0x22222222FFFFFFFF#64 =
      [some 0xAF580BAE#64, some 0x9ABE81AC#64, some 0xE8E53C5B#64, some 0xC569A1D8#64] ∧
    allSelects rv32 (.v3Decsm 10#5 11#5 12#5 ·) 0x53000000#64 0x12345678#64 =
      [some 0x4293A229#64, some 0xB5C00728#64, some 0xE66506DF#64, some 0x5F72EB9E#64] := by decide

theorem test_v4Sub :
    x10After rv64 (.v4Sub 10#5 11#5) 0x0706050403020100#64 0#64 = some 0xC56F6BF27B777C63#64 ∧
      x10After rv64 (.v4Sub 10#5 11#5) 0x5353535300000000#64 0#64 = some 0xEDEDEDED63636363#64 := by decide

theorem test_v4Imix :
    x10After rv64 (.v4Imix 10#5 11#5) 0x00000001455313DB#64 0#64 = some 0x0B0D090E551DA432#64 ∧
      x10After rv64 (.v4Imix 10#5 11#5) 0x305DBFD45C0A01F2#64 0#64 = some 0xDFA35C268E918238#64 := by decide

theorem test_v4EncsmLo :
    x10After rv64 (.v4EncsmLo 10#5 11#5 12#5) 0x0706050403020100#64 0x0F0E0D0C0B0A0908#64 = some 0x51336D2C455C6A6A#64 ∧
      x10After rv64 (.v4EncsmLo 10#5 11#5 12#5) 0x2BE2F4A0BEE33D19#64 0x0848F8E92A8DC69A#64 = some 0x9A19CBE0E5816604#64 := by
  decide

theorem test_v4EncsmHi :
    x10After rv64 (.v4EncsmHi 10#5 11#5 12#5) 0x0706050403020100#64 0x0F0E0D0C0B0A0908#64 = some 0x5C219C27615DD9B0#64 ∧
      x10After rv64 (.v4EncsmHi 10#5 11#5 12#5) 0x2BE2F4A0BEE33D19#64 0x0848F8E92A8DC69A#64 = some 0x4C2606287AD3F848#64 := by
  decide

theorem test_v4EncsLo :
    x10After rv64 (.v4EncsLo 10#5 11#5 12#5) 0x0706050403020100#64 0x0F0E0D0C0B0A0908#64 = some 0x7BAB01F276676B63#64 ∧
      x10After rv64 (.v4EncsLo 10#5 11#5 12#5) 0x2BE2F4A0BEE33D19#64 0x0848F8E92A8DC69A#64 = some 0xAE52B4E0305DBFD4#64 := by
  decide

theorem test_v4EncsHi :
    x10After rv64 (.v4EncsHi 10#5 11#5 12#5) 0x0706050403020100#64 0x0F0E0D0C0B0A0908#64 = some 0x2B6F7CFEC577D730#64 ∧
      x10After rv64 (.v4EncsHi 10#5 11#5 12#5) 0x2BE2F4A0BEE33D19#64 0x0848F8E92A8DC69A#64 = some 0xE598271EF11141B8#64 := by
  decide

theorem test_v4DecsmLo :
    x10After rv64 (.v4DecsmLo 10#5 11#5 12#5) 0x0706050403020100#64 0x0F0E0D0C0B0A0908#64 = some 0x6E29192E1C96A313#64 ∧
      x10After rv64 (.v4DecsmLo 10#5 11#5 12#5) 0x2BE2F4A0BEE33D19#64 0x0848F8E92A8DC69A#64 = some 0xDBA5C4379533C4B2#64 := by
  decide

theorem test_v4DecsmHi :
    x10After rv64 (.v4DecsmHi 10#5 11#5 12#5) 0x0706050403020100#64 0x0F0E0D0C0B0A0908#64 = some 0x519BBDC6B2F24F17#64 ∧
      x10After rv64 (.v4DecsmHi 10#5 11#5 12#5) 0x2BE2F4A0BEE33D19#64 0x0848F8E92A8DC69A#64 = some 0x728775CD0AEBF16F#64 := by
  decide

theorem test_v4DecsLo :
    x10After rv64 (.v4DecsLo 10#5 11#5 12#5) 0x0706050403020100#64 0x0F0E0D0C0B0A0908#64 = some 0x9ED7093038A3F352#64 ∧
      x10After rv64 (.v4DecsLo 10#5 11#5 12#5) 0x2BE2F4A0BEE33D19#64 0x0848F8E92A8DC69A#64 = some 0x95D48B470BB4E18E#64 := by
  decide

theorem test_v4DecsHi :
    x10After rv64 (.v4DecsHi 10#5 11#5 12#5) 0x0706050403020100#64 0x0F0E0D0C0B0A0908#64 = some 0xD5A54081FB6A36BF#64 ∧
      x10After rv64 (.v4DecsHi 10#5 11#5 12#5) 0x2BE2F4A0BEE33D19#64 0x0848F8E92A8DC69A#64 = some 0x5A3BC7EBBF4DBA37#64 := by
  decide

/-! ### Operands: 95_test_vectors.md programs P4 and P6, a step each -/

/-- P6: `saes.v2.sub.enc` with its destination equal to both sources. -/
theorem test_in_place :
    (nextOf (exec (.v2SubEnc 11#5 11#5 11#5) (held rv32 0x03020100#64 0#64))).map (fun t => t.readReg 11#5) =
      some 0x7B777C63#64 := by decide

/-- P6: sources `x0` read as zero. -/
theorem test_x0_source :
    x10After rv32 (.v1Dec 10#5 0#5) 0#64 0#64 = some 0x52525252#64 ∧
      x10After rv32 (.v3Decsm 10#5 0#5 0#5 3#2) 0xFF#64 0xFF#64 = some 0x5150A7F4#64 := by decide

/-- P6: a result written to `x0` is discarded, and `pc` advances. -/
theorem test_x0_destination :
    (nextOf (exec (.v3Encs 0#5 11#5 12#5 2#2) (held rv32 0x03020100#64 0xFFFFFFFF#64))).map (fun t => (t.regs, t.pc)) =
      some ((held rv32 0x03020100#64 0xFFFFFFFF#64).regs, 0x1004#64) := by decide

/-- R26, R27: `pc` wraps at `2^XLEN`. -/
theorem test_pc_wraps :
    (nextOf (exec (.v1Enc 10#5 11#5) { held rv32 0#64 0#64 with pc := 0xFFFFFFFC#64 })).map (fun t => (t.pc, t.wrapped)) = some (0#64, true) ∧
      (nextOf (exec (.v1Enc 10#5 11#5) { held rv64 0#64 0#64 with pc := 0xFFFFFFFC#64 })).map (fun t => (t.pc, t.wrapped)) =
        some (0x100000000#64, false) := by decide

/-! ### Steps: 95_test_vectors.md section 2.7 -/

def rv64V31 : Config := { rv64 with impl := Config.implV31 }

/-- A `saes.v4.*` word on `XLEN = 32`, a mnemonic outside `IMPL`, an unassigned word: the fault with its record. -/
theorem test_step_faults :
    faultOf (step (held rv32 0#64 0#64 0x1805850B#32)) = some (.illegalInstruction 0x1000#64 0x1805850B#32) ∧
      faultOf (step (held rv64V31 0#64 0#64 0x8EC5850B#32)) = some (.illegalInstruction 0x1000#64 0x8EC5850B#32) ∧
      faultOf (step (held rv64 0#64 0#64 0x2C00000B#32)) = some (.illegalInstruction 0x1000#64 0x2C00000B#32) := by decide

/-- v3.1 has `encsm`; the word of a foreign opcode is refused and is no fault. -/
theorem test_step_runs_or_refuses :
    x10Stepped rv64V31 0x90C5850B#32 0x03020100#64 0xFFFFFFFF#64 = some 0x88116688#64 ∧
      refusalOf (step (held rv64 0#64 0#64 0x00000013#32)) = some (.foreignOpcode 0x00000013#32) := by decide

/-- The end of a run, a `pc` before the text, one past its end and one between two words. -/
theorem test_step_end_and_stuck :
    faultOf (step { held rv64 0#64 0#64 with pc := 0x1004#64 }) = some .runEnded ∧
      faultOf (step { held rv64 0#64 0#64 with pc := 0xFFC#64 }) = some (.stuck 0xFFC#64) ∧
      faultOf (step { held rv64 0#64 0#64 with pc := 0x1008#64 }) = some (.stuck 0x1008#64) ∧
      faultOf (step { held rv64 0#64 0#64 with pc := 0x1002#64 }) = some (.stuck 0x1002#64) := by decide

/-- From reset with nothing placed the run has ended; every word of section 2.6 runs once it is placed. -/
theorem test_with_fetch_word :
    faultOf (step State.reset) = some .runEnded ∧
      [0x0005850B, 0x0205850B, 0x04C5850B, 0x06C5850B, 0x08C5850B, 0x0AC5850B, 0x8CC5850B, 0x8EC5850B, 0x90C5850B, 0x92C5850B, 0x94C5850B].all (fun w => goesOn (step (State.reset.withFetchWord 32 w))) = true ∧
      [0x96C5850B, 0x1805850B, 0x1A05850B, 0x1CC5850B, 0x1EC5850B, 0x20C5850B, 0x22C5850B, 0x24C5850B, 0x26C5850B, 0x28C5850B, 0x2AC5850B].all (fun w => goesOn (step (State.reset.withFetchWord 32 w))) = true := by decide

/-- A configuration that breaks R7: a `saes.v4.*` mnemonic on `XLEN = 32`. -/
def rv32WithV4 : Config := { Config.standard .rv64 with xlen := .rv32 }

/-- R211: the two refusals of the rule, the model's own, and the registers of an admitted launch. -/
theorem test_launch :
    refusalOf (launch (launchOf .rv64 2#64 1)) = some .misalignedStart ∧
      refusalOf (launch (launchOf .rv32 0xFFFFFFFC#64 2)) = some .textTooLong ∧
      refusalOf (launch { launchOf .rv32 0#64 1 with cfg := rv32WithV4 }) = some .badConfig ∧
      goesOn (launch (launchOf .rv32 0xFFFFFFFC#64 1)) = true ∧
      (launchState (launchOf .rv64 0x1000#64 1)).readReg 5#5 = 0x55#64 := by decide

/-! ### Witnesses: for each statement with hypotheses, a state and operands that meet them -/

theorem test_witness_DecodeFollowsTheOpcodeMap :
    (∃ row ∈ opcodeMap, (0x0000000B#32 : Word32) &&& row.mask = row.matchBits) ∧
      (∃ row ∈ opcodeMap, (0x2BFF8F8B#32 : Word32) &&& row.mask = row.matchBits) ∧
      (∀ row ∈ opcodeMap, (0x2C00000B#32 : Word32) &&& row.mask ≠ row.matchBits) := by decide

/-- The three clauses at their ends: `sel` 22 and 31; `sel` 5, 12 and 21 with bits 31:30 not `00`; `sel` 0 and 13 with the `rs2`
field not `00000`. -/
theorem test_witness_UnassignedWordsRaise :
    [0x2C00000B#32, 0xFFFF8F8B#32].all (fun w => w.extractLsb' 0 7 = 0b0001011#7 ∧ w.extractLsb' 12 3 = 0b000#3 ∧
      22 ≤ (w.extractLsb' 25 5).toNat) = true ∧
    [0x4A00000B#32, 0x9805850B#32, 0xEA00000B#32].all (fun w => w.extractLsb' 0 7 = 0b0001011#7 ∧
      w.extractLsb' 12 3 = 0b000#3 ∧
      ((w.extractLsb' 25 5).toNat ≤ 5 ∨ 12 ≤ (w.extractLsb' 25 5).toNat ∧ (w.extractLsb' 25 5).toNat ≤ 21) ∧
      w.extractLsb' 30 2 ≠ 0b00#2) = true ∧
    [0x0015850B#32, 0x1BF0000B#32].all (fun w => w.extractLsb' 0 7 = 0b0001011#7 ∧ w.extractLsb' 12 3 = 0b000#3 ∧
      (w.extractLsb' 25 5).toNat ∈ [0, 1, 12, 13] ∧ w.extractLsb' 30 2 = 0b00#2 ∧ w.extractLsb' 20 5 ≠ 0b00000#5) = true ∧
    Fetches (held rv64 0#64 0#64 0x2C00000B#32) 0x2C00000B#32 ∧ Fetches (held rv64 0#64 0#64 0xEA00000B#32) 0xEA00000B#32 ∧
      Fetches (held rv64 0#64 0#64 0x0015850B#32) 0x0015850B#32 :=
  ⟨by decide, by decide, by decide, ⟨by decide, by decide⟩, ⟨by decide, by decide⟩, ⟨by decide, by decide⟩⟩

theorem test_witness_OtherFunct3RaisesOtherOpcodeIsRefused :
    Fetches (held rv64 0#64 0#64 0x0CC5950B#32) 0x0CC5950B#32 ∧
      (0x0CC5950B#32 : Word32).extractLsb' 0 7 = 0b0001011#7 ∧ (0x0CC5950B#32 : Word32).extractLsb' 12 3 ≠ 0b000#3 ∧
      Fetches (held rv64 0#64 0#64 0x00000000#32) 0x00000000#32 ∧ (0x00000000#32 : Word32).extractLsb' 0 7 ≠ 0b0001011#7 ∧
      Fetches (held rv64 0#64 0#64 0x0C62800B#32) 0x0C62800B#32 ∧ decodeWord 0x0C62800B#32 = .ok (.v3Encs 0#5 5#5 6#5 0#2) ∧
      ¬ Lacks rv64 .v3Encs :=
  ⟨⟨by decide, by decide⟩, by decide, by decide, ⟨by decide, by decide⟩, by decide, ⟨by decide, by decide⟩, rfl,
    by unfold Lacks; decide⟩

theorem test_witness_StepRunsTheDecodedInstruction :
    Fetches (held rv64 0#64 0#64 0x1805850B#32) 0x1805850B#32 ∧ decodeWord 0x1805850B#32 = .ok (.v4Sub 10#5 11#5) :=
  ⟨⟨by decide, by decide⟩, rfl⟩

/-- A decoder that reads every word as one instruction, on a hart that has it and on one that has not. -/
theorem test_witness_AnyDecoderRunsItsInstruction :
    (fun _ => .ok (.v4Sub 10#5 11#5) : Word32 → Except DecodeError Instr) 0x00000013#32 = .ok (.v4Sub 10#5 11#5) ∧
      Fetches (held rv64 0#64 0#64 0x00000013#32) 0x00000013#32 ∧ ¬ Lacks rv64 .v4Sub ∧
      Fetches (held rv32 0#64 0#64 0x00000013#32) 0x00000013#32 ∧ Lacks rv32 .v4Sub :=
  ⟨rfl, ⟨by decide, by decide⟩, by unfold Lacks; decide, ⟨by decide, by decide⟩, by unfold Lacks; decide⟩

/-- One word for each of the two grounds. -/
theorem test_witness_Rv64OnlyOrUnimplementedWordsRaise :
    (Fetches (held rv32 0#64 0#64 0x1805850B#32) 0x1805850B#32 ∧ decodeWord 0x1805850B#32 = .ok (.v4Sub 10#5 11#5) ∧
      Mnemonic.v4Sub.rv64Only = true) ∧
    (Fetches (held rv64V31 0#64 0#64 0x8EC5850B#32) 0x8EC5850B#32 ∧
      decodeWord 0x8EC5850B#32 = .ok (.v3Encm 10#5 11#5 12#5 2#2) ∧ Mnemonic.v3Encm ∉ rv64V31.impl) :=
  ⟨⟨⟨by decide, by decide⟩, rfl, rfl⟩, ⟨by decide, rfl⟩, rfl, by decide⟩

/-- A word that fits no row, one that fits an RV64 row on `XLEN = 32`, one that fits a row outside `IMPL`. -/
theorem test_witness_IllegalInstructionExactlyForTheListedCauses :
    (Fetches (held rv64 0#64 0#64 0x0015850B#32) 0x0015850B#32 ∧
      ∀ row ∈ opcodeMap, (0x0015850B#32 : Word32) &&& row.mask ≠ row.matchBits) ∧
    (Fetches (held rv32 0#64 0#64 0x1805850B#32) 0x1805850B#32 ∧
      ∃ row ∈ opcodeMap, (0x1805850B#32 : Word32) &&& row.mask = row.matchBits ∧ row.mnemonic.rv64Only = true) ∧
    (Fetches (held rv64V31 0#64 0#64 0x8EC5850B#32) 0x8EC5850B#32 ∧
      ∃ row ∈ opcodeMap, (0x8EC5850B#32 : Word32) &&& row.mask = row.matchBits ∧ row.mnemonic ∉ rv64V31.impl) :=
  ⟨⟨⟨by decide, by decide⟩, by decide⟩, ⟨⟨by decide, by decide⟩, by decide⟩, ⟨⟨by decide, by decide⟩, by decide⟩⟩

theorem test_witness_ExecCompletesExactlyWhenImplemented :
    ¬ Lacks (held rv64V31 0#64 0#64).cfg (Instr.v3Encsm 10#5 11#5 12#5 3#2).mnemonic ∧
      Lacks (held rv64V31 0#64 0#64).cfg (Instr.v3Encm 10#5 11#5 12#5 3#2).mnemonic := by unfold Lacks; decide

/-- A step that goes on, an instruction that completes where `pc` wraps, and a step that faults. -/
theorem test_witness_PcAdvancesByFour :
    (∃ t, step (held rv64 0#64 0#64) = .next t) ∧
      (∃ t, exec (.v1Enc 10#5 11#5) { held rv32 0#64 0#64 with pc := 0xFFFFFFFC#64 } = .next t) ∧
      faultOf (step (held rv32 0#64 0#64 0x1805850B#32)) = some (.illegalInstruction 0x1000#64 0x1805850B#32) :=
  ⟨next_of_goesOn (by decide), next_of_goesOn (by decide), by decide⟩

theorem test_witness_ZeroRegisterIsHardwired :
    (¬ Lacks (held rv32 0#64 0#64).cfg (Instr.v3Encs 0#5 11#5 12#5 2#2).mnemonic ∧ (Instr.v3Encs 0#5 11#5 12#5 2#2).rd = 0#5) ∧
      (31#5 : Reg) ≠ 0#5 ∧ ¬ Lacks (held rv32 0#64 0#64).cfg .v1Enc := by unfold Lacks; decide

/-- Two states of the invariant: on `XLEN = 64`, and on `XLEN = 32` at the end of the address space. -/
def onRv64 : State := held rv64 0xFFFFFFFFFFFFFFFF#64 0#64

theorem onRv64_inv : onRv64.Inv where
  config := by decide
  slot0 := by decide
  widths := by decide
  pcWidth := by decide
  start := by decide
  aligned := by decide
  fits := by decide
  inText := ⟨0, by decide, by decide⟩

def topOfRv32 : State := { held rv32 0xFFFFFFFF#64 0#64 with pcStart := 0xFFFFFFFC#64, pc := 0xFFFFFFFC#64 }

theorem topOfRv32_inv : topOfRv32.Inv where
  config := by decide
  slot0 := by decide
  widths := by decide
  pcWidth := by decide
  start := by decide
  aligned := by decide
  fits := by decide
  inText := ⟨0, by decide, by decide⟩

/-- A text of `n` words from address 0 on `XLEN = 32`: with `n = 2^30` it fills the whole address space. -/
def textOf (n : Nat) : State :=
  { held rv32 0#64 0#64 with program := List.replicate n 0x0005850B#32, pcStart := 0#64, pc := 0#64 }

theorem textOf_fetch {n : Nat} (hn : 0 < n) :
    (textOf n).fetchWord (textOf n).pcValue.toNat = some 0x0005850B#32 :=
  (fetchWord_at (textOf n) 0).trans (by simp [textOf, hn])

theorem held_slots : (held rv32 0#64 0#64).regs[0] = 0#64 ∧
    ∀ r : Reg, fit .rv32 (held rv32 0#64 0#64).regs[r.toNat] = (held rv32 0#64 0#64).regs[r.toNat] := by decide

theorem textOf_inv {n : Nat} (hn : 4 * n ≤ 2 ^ 32) : (textOf n).Inv where
  config := by show rv32.wf = true; decide
  slot0 := held_slots.1
  widths := held_slots.2
  pcWidth := rfl
  start := rfl
  aligned := rfl
  fits := by
    show 0 + 4 * (List.replicate n 0x0005850B#32).length ≤ 2 ^ 32
    rwa [List.length_replicate, Nat.zero_add]
  inText := ⟨0, Nat.zero_le _, rfl⟩

theorem textOf_step {n : Nat} (hn : 0 < n) : ∃ t, step (textOf n) = .next t := by
  have h : (textOf n).runOver = false := by rw [runOver_of_fetch (textOf_fetch hn)]; exact Bool.and_false _
  have he := exec_v1Enc (s := textOf n) (rd := 10#5) (rs1 := 11#5) (by show available rv32 .v1Enc = true; decide)
  have hd : decodeWord 0x0005850B#32 = .ok (.v1Enc 10#5 11#5) := rfl
  simp only [step, stepWith, h, textOf_fetch hn, hd, he]
  exact ⟨_, rfl⟩

theorem textOf_end {n : Nat} (hn : n = 2 ^ 30) : ({ textOf n with wrapped := true } : State).endPc = 0#64 := by
  show fit .rv32 (0#64 + BitVec.ofNat 64 (4 * (List.replicate n 0x0005850B#32).length)) = 0#64
  rw [List.length_replicate, hn]; decide

/-- R212 where the text fills the address space, `4n = 2^32`: at address 0 the first step goes on, and once `pc` has wrapped to that
address the run has ended. -/
theorem test_full_text {n : Nat} (hn : n = 2 ^ 30) : (∃ t, step (textOf n) = .next t) ∧
    step { textOf n with wrapped := true } = .fault .runEnded := by
  have hpos : 0 < n := hn ▸ Nat.two_pow_pos 30
  refine ⟨textOf_step hpos, ?_⟩
  have hf : ({ textOf n with wrapped := true } : State).fetchWord ({ textOf n with wrapped := true } : State).pcValue.toNat =
      some 0x0005850B#32 := textOf_fetch hpos
  have h : ({ textOf n with wrapped := true } : State).runOver = true := by
    rw [runOver_of_fetch hf, textOf_end hn]; rfl
  simp only [step, stepWith, h, if_true]

theorem test_witness_StepKeepsTheInvariant :
    onRv64.Inv ∧ (∃ t, step onRv64 = .next t) ∧
      topOfRv32.Inv ∧ ∃ t, step topOfRv32 = .next t :=
  ⟨onRv64_inv, next_of_goesOn (by decide), topOfRv32_inv, next_of_goesOn (by decide)⟩

theorem test_witness_LaunchHasTheInvariant : ∃ s, launch (launchOf .rv32 0xFFFFFFFC#64 1) = .next s :=
  next_of_goesOn (by decide)

theorem test_witness_InvariantStatesAreNeverStuck : topOfRv32.Inv ∧ onRv64.Inv :=
  ⟨topOfRv32_inv, onRv64_inv⟩

/-- Variant 1, and Variant 2 under each way of R24. -/
theorem test_witness_UpperHalfOfA32BitResult :
    (¬ Lacks (held rv64Any 0#64 0#64).cfg .v1Dec ∧ Mnemonic.v1Dec.rv64Only = false ∧ (Instr.v1Dec 1#5 0#5).rd ≠ 0#5) ∧
      (¬ Lacks (held rv32 0#64 0#64).cfg .v2SubEnc ∧ (held rv32 0#64 0#64).cfg.xlen = .rv32) ∧
      (¬ Lacks (held rv64 0#64 0#64).cfg .v2SubEnc ∧ (held rv64 0#64 0#64).cfg.hi32 = .zero) ∧
      (¬ Lacks (held rv64Sext 0#64 0#64).cfg .v2SubEnc ∧ (held rv64Sext 0#64 0#64).cfg.hi32 = .sext) ∧
      (¬ Lacks (held rv64Any 0#64 0#64).cfg .v2SubEnc ∧ (held rv64Any 0#64 0#64).cfg.hi32 = .any) := by unfold Lacks; decide

theorem test_witness_StepChangesOnlyTheDestination :
    (∃ t, step (held rv64 0#64 0#64) = .next t) ∧ ∃ t, step (held rv32 1#64 2#64 0x96C5850B#32) = .next t :=
  ⟨next_of_goesOn (by decide), next_of_goesOn (by decide)⟩

/-- Two states that differ in every byte `saes.v2.mix.enc` does not read. -/
theorem test_witness_ResultReadsOnlyTheListedBytes :
    (held rv64 0xAAAA13DB#64 0x4553BBBB#64).cfg = (held rv64 0x99999999111113DB#64 0x8888888845532222#64).cfg ∧
      (∀ k ∈ readsRs1 (.v2MixEnc 10#5 11#5 12#5), byte ((held rv64 0xAAAA13DB#64 0x4553BBBB#64).readReg 11#5) k =
        byte ((held rv64 0x99999999111113DB#64 0x8888888845532222#64).readReg 11#5) k) ∧
      (∀ k ∈ readsRs2 (.v2MixEnc 10#5 11#5 12#5), byte ((held rv64 0xAAAA13DB#64 0x4553BBBB#64).readReg 12#5) k =
        byte ((held rv64 0x99999999111113DB#64 0x8888888845532222#64).readReg 12#5) k) ∧
      (∃ t, exec (.v2MixEnc 10#5 11#5 12#5) (held rv64 0xAAAA13DB#64 0x4553BBBB#64) = .next t) ∧
      (∃ t, exec (.v2MixEnc 10#5 11#5 12#5) (held rv64 0x99999999111113DB#64 0x8888888845532222#64) = .next t) ∧
      Config.drawsHigh rv64 = false :=
  ⟨by decide, by decide, by decide, ⟨_, exec_v2MixEnc (by decide)⟩, ⟨_, exec_v2MixEnc (by decide)⟩, by decide⟩

/-- The end, a `pc` between two words, and the first word; then the one address that is both the end and the first word. -/
theorem test_witness_StepFetchesByAddress :
    (({ held rv64 0#64 0#64 with pc := 0x1004#64 } : State).pcValue =
        ({ held rv64 0#64 0#64 with pc := 0x1004#64 } : State).endPc ∧
      ∀ k < 1, ({ held rv64 0#64 0#64 with pc := 0x1004#64 } : State).pcValue.toNat ≠
        ({ held rv64 0#64 0#64 with pc := 0x1004#64 } : State).startValue.toNat + 4 * k) ∧
      (({ held rv64 0#64 0#64 with pc := 0x1002#64 } : State).pcValue ≠
          ({ held rv64 0#64 0#64 with pc := 0x1002#64 } : State).endPc ∧
        ∀ k < 1, ({ held rv64 0#64 0#64 with pc := 0x1002#64 } : State).pcValue.toNat ≠
          ({ held rv64 0#64 0#64 with pc := 0x1002#64 } : State).startValue.toNat + 4 * k) ∧
      (0 < (held rv64 0#64 0#64).program.length ∧
        (held rv64 0#64 0#64).pcValue.toNat = (held rv64 0#64 0#64).startValue.toNat + 4 * 0 ∧
        ¬ ((held rv64 0#64 0#64).pcValue = (held rv64 0#64 0#64).endPc ∧ (held rv64 0#64 0#64).wrapped = true)) := by decide

theorem test_witness_StepFetchesByAddress_full {n : Nat} (hn : n = 2 ^ 30) :
    0 < (textOf n).program.length ∧ (textOf n).pcValue.toNat = (textOf n).startValue.toNat + 4 * 0 ∧
      ({ textOf n with wrapped := true } : State).pcValue = ({ textOf n with wrapped := true } : State).endPc :=
  ⟨by
    show 0 < (List.replicate n 0x0005850B#32).length
    rw [List.length_replicate]; omega, rfl, (textOf_end hn).symm⟩

theorem test_witness_TextBytesAreLittleEndian :
    (held rv64 0#64 0#64 0x1A01008B#32).fetchWord 0x1000 = some 0x1A01008B#32 ∧
      (held rv64 0#64 0#64 0x1A01008B#32).fetchByte 0x1003 = some 0x1A#8 ∧
      decodeWord 0x1A01008B#32 = .ok (.v4Imix 1#5 2#5) := ⟨by decide, by decide, rfl⟩

/-- No step and the one step of a one-word text, and a text that fills the address space. -/
theorem test_witness_RunOfNWordsEndsAfterNSteps :
    (topOfRv32.Inv ∧ topOfRv32.pc = topOfRv32.pcStart ∧ topOfRv32.wrapped = false ∧
      runSteps 0 topOfRv32 = .next topOfRv32 ∧ ∃ t, runSteps 1 topOfRv32 = .next t) ∧
    ∀ n, n = 2 ^ 30 → (textOf n).Inv ∧ (textOf n).pc = (textOf n).pcStart ∧ (textOf n).wrapped = false ∧
      runSteps 0 (textOf n) = .next (textOf n) :=
  ⟨⟨topOfRv32_inv, rfl, rfl, rfl, next_of_goesOn (by decide)⟩,
    fun n hn => ⟨textOf_inv (by omega), rfl, rfl, rfl⟩⟩

/-- Each clause at its edge: an unaligned start, a text one word too long, and one that just fits. -/
theorem test_witness_LaunchStartsOrRefuses :
    (launchOf .rv32 0xFFFFFFFE#64 0).pcStart.toNat % 4 ≠ 0 ∧
      2 ^ Xlen.rv32.bits < (launchOf .rv32 0xFFFFFFFC#64 2).pcStart.toNat + 4 * 2 ∧
      ((launchOf .rv32 0xFFFFFFFC#64 1).pcStart.toNat % 4 = 0 ∧
        (launchOf .rv32 0xFFFFFFFC#64 1).pcStart.toNat + 4 * 1 ≤ 2 ^ Xlen.rv32.bits ∧
        (launchOf .rv32 0xFFFFFFFC#64 1).cfg.wf = true) ∧
      (5#5 : Reg) ≠ 0#5 ∧ (launchOf .rv32 0xFFFFFFFC#64 1).xStart.lookup 5#5 = some 0x55#64 := by decide

theorem test_witness_V1EncSubstitutesTheLowBytes :
    ¬ Lacks (held rv32 0#64 0#64).cfg .v1Enc ∧
      ¬ Lacks (held rv64 0#64 0#64).cfg .v1Enc := by unfold Lacks; decide

theorem test_witness_V1DecSubstitutesTheLowBytes :
    ¬ Lacks (held rv32 0#64 0#64).cfg .v1Dec ∧
      ¬ Lacks (held rv64 0#64 0#64).cfg .v1Dec := by unfold Lacks; decide

/-- Both orders, the second with the two destinations equal to the source. -/
theorem test_witness_V1DecAndV1EncUndoEachOther :
    (∃ t u, exec (.v1Enc 10#5 11#5) (held rv64 5#64 0#64) = .next t ∧ exec (.v1Dec 13#5 10#5) t = .next u) ∧
      ∃ t u, exec (.v1Dec 11#5 11#5) (held rv32 5#64 0#64) = .next t ∧ exec (.v1Enc 11#5 11#5) t = .next u :=
  ⟨⟨_, _, exec_v1Enc (by decide), exec_v1Dec (by decide)⟩, ⟨_, _, exec_v1Dec (by decide), exec_v1Enc (by decide)⟩⟩

theorem test_witness_V2SubEncSubstitutesThePair :
    ¬ Lacks (held rv32 0#64 0#64).cfg .v2SubEnc ∧
      ¬ Lacks (held rv64 0#64 0#64).cfg .v2SubEnc := by unfold Lacks; decide

theorem test_witness_V2SubDecSubstitutesThePair :
    ¬ Lacks (held rv32 0#64 0#64).cfg .v2SubDec ∧
      ¬ Lacks (held rv64 0#64 0#64).cfg .v2SubDec := by unfold Lacks; decide

theorem test_witness_V2MixEncMixesTheColumn :
    (¬ Lacks (held rv32 0#64 0#64).cfg .v2MixEnc ∧ (held rv32 0#64 0#64).cfg.mixRow0 = .t0) ∧
      ¬ Lacks (held rv64T3 0#64 0#64).cfg .v2MixEnc ∧ (held rv64T3 0#64 0#64).cfg.mixRow0 = .t3 := by unfold Lacks; decide

theorem test_witness_V2MixDecMixesTheColumn :
    (¬ Lacks (held rv32 0#64 0#64).cfg .v2MixDec ∧ (held rv32 0#64 0#64).cfg.mixRow0 = .t0) ∧
      ¬ Lacks (held rv64T3 0#64 0#64).cfg .v2MixDec ∧ (held rv64T3 0#64 0#64).cfg.mixRow0 = .t3 := by unfold Lacks; decide

theorem test_witness_V3EncsSubstitutesInPlace :
    ¬ Lacks (held rv32 0#64 0#64).cfg .v3Encs ∧
      ¬ Lacks (held rv64 0#64 0#64).cfg .v3Encs := by unfold Lacks; decide

theorem test_witness_V3EncmContributes :
    ¬ Lacks (held rv32 0#64 0#64).cfg .v3Encm ∧
      ¬ Lacks (held rv64 0#64 0#64).cfg .v3Encm := by unfold Lacks; decide

theorem test_witness_V3EncsmSubstitutesAndContributes :
    ¬ Lacks (held rv32 0#64 0#64).cfg .v3Encsm ∧
      ¬ Lacks (held rv64 0#64 0#64).cfg .v3Encsm := by unfold Lacks; decide

theorem test_witness_V3DecsSubstitutesInPlace :
    ¬ Lacks (held rv32 0#64 0#64).cfg .v3Decs ∧
      ¬ Lacks (held rv64 0#64 0#64).cfg .v3Decs := by unfold Lacks; decide

theorem test_witness_V3DecmContributes :
    ¬ Lacks (held rv32 0#64 0#64).cfg .v3Decm ∧
      ¬ Lacks (held rv64 0#64 0#64).cfg .v3Decm := by unfold Lacks; decide

theorem test_witness_V3DecsmSubstitutesAndContributes :
    ¬ Lacks (held rv32 0#64 0#64).cfg .v3Decsm ∧
      ¬ Lacks (held rv64 0#64 0#64).cfg .v3Decsm := by unfold Lacks; decide

theorem test_witness_FourContributionsMixTheColumn :
    (31#5 : Reg) ≠ 0#5 ∧ (0#5 : Reg) ≠ 31#5 ∧ ¬ Lacks (held rv32 0#64 0#64).cfg .v3Encm ∧
      ¬ Lacks (held rv64 0#64 0#64).cfg .v3Decm := by unfold Lacks; decide

theorem test_witness_V4SubSubstitutesAllBytes :
    ¬ Lacks (held rv64 0#64 0#64).cfg .v4Sub := by unfold Lacks; decide

theorem test_witness_V4ImixMixesBothColumns :
    ¬ Lacks (held rv64 0#64 0#64).cfg .v4Imix := by unfold Lacks; decide

theorem test_witness_V4EncsmIsTheEncryptionRound :
    ¬ Lacks (held rv64 0#64 0#64).cfg .v4EncsmLo ∧
      ¬ Lacks (held rv64 0#64 0#64).cfg .v4EncsmHi := by unfold Lacks; decide

theorem test_witness_V4EncsIsTheLastEncryptionRound :
    ¬ Lacks (held rv64 0#64 0#64).cfg .v4EncsLo ∧
      ¬ Lacks (held rv64 0#64 0#64).cfg .v4EncsHi := by unfold Lacks; decide

theorem test_witness_V4DecsmIsTheDecryptionRound :
    ¬ Lacks (held rv64 0#64 0#64).cfg .v4DecsmLo ∧
      ¬ Lacks (held rv64 0#64 0#64).cfg .v4DecsmHi := by unfold Lacks; decide

theorem test_witness_V4DecsIsTheLastDecryptionRound :
    ¬ Lacks (held rv64 0#64 0#64).cfg .v4DecsLo ∧
      ¬ Lacks (held rv64 0#64 0#64).cfg .v4DecsHi := by unfold Lacks; decide

theorem test_witness_SboxIsTheAffineMapOfTheInverse :
    (if (0#8 : Byte) = 0#8 then (0#8 : Byte) = 0#8 else gfmul 0#8 0#8 = 1#8) ∧
      (if (0x53#8 : Byte) = 0#8 then (0xCA#8 : Byte) = 0#8 else gfmul 0x53#8 0xCA#8 = 1#8) := by decide

theorem test_witness_Rotl32MovesBytes :
    3 < 4 ∧ byte (rotl32 0xA56363C6#32 (8 * (3#2 : ByteSel).toNat)) ((3 + (3#2 : ByteSel).toNat) % 4) = 0xA5#8 := by decide

theorem test_witness_InvMixColIsTheInverseMatrix : 3 < 4 ∧ byte (invMixCol 0x01000000#32) 3 = 0x0E#8 := by decide

/-- The last row and column, the last index. -/
theorem test_witness_ShiftRowsRotatesTheRows :
    byte (shiftRows 0xF0E0D0C0B0A090807060504030201000#128) (3 + 4 * 3) = 0xB0#8 ∧
      byte (invShiftRows 0xF0E0D0C0B0A090807060504030201000#128) (3 + 4 * 3) = 0x30#8 := by decide

/-- The four forms, the last column, and the four sources in four registers. -/
theorem test_witness_Variant3RoundIsTheVariant4Round :
    3 < 4 ∧ (14#5 : Reg) ≠ 0#5 ∧ (∀ k < 4, BitVec.ofNat 5 (10 + k) ≠ (14#5 : Reg)) ∧
      (∀ dec mix : Bool, ¬ Lacks (held rv32 0#64 0#64).cfg (selectInstr dec mix 14#5 14#5 14#5 0#2).mnemonic) := by
  unfold Lacks; decide

end Sys2Proof.Tests
end

section
/-!
PROOFS. The statements of 00_scope.md: a step is the meaning of the decoded instruction, and every step keeps the invariant.
-/

namespace Sys2Proof.Machine

/-! ### The record of a fault -/

/-- The frame of an instruction records the word of the default encoding (log entry 11), so recording that word again changes
nothing. -/
theorem recordWord_encode_exec (i : Instr) (s : State) : recordWord (encode i) (exec i s) = exec i s := by
  cases h : available s.cfg i.mnemonic
  · rw [exec_unavailable h]; rfl
  · obtain ⟨u, -, hu⟩ := exec_available h
    rw [hu]; rfl

/-! ### The registers after an instruction's one write -/

/-- The registers after the one write are those after a plain register write: a draw touches none. -/
theorem OneWrite.regs_eq {s u : State} {rd : Reg} (h : OneWrite s rd u) : ∃ v, u.regs = (s.writeReg rd v).regs := by
  cases h with
  | reg v => exact ⟨v, rfl⟩
  | w32 v => obtain ⟨w, hw | hw⟩ := writeW32_eq s rd v <;> exact ⟨w, by simp [hw]⟩

/-- No write reaches the unused slot of `x0` (R21). -/
theorem writeReg_slot0 (s : State) (rd : Reg) (v : Word) : (s.writeReg rd v).regs[0] = s.regs[0] := by
  unfold State.writeReg
  split
  · rfl
  · next hrd =>
    have hne : rd.toNat ≠ 0 := fun e => hrd (BitVec.eq_of_toNat_eq e)
    exact Vector.getElem_set_ne rd.isLt _ hne

/-- A register write stores an `XLEN`-bit value, and so leaves every register with one (R20). -/
theorem writeReg_widths {s : State} (h : ∀ r : Reg, fit s.cfg.xlen s.regs[r.toNat] = s.regs[r.toNat]) (rd : Reg) (v : Word)
    (r : Reg) : fit s.cfg.xlen (s.writeReg rd v).regs[r.toNat] = (s.writeReg rd v).regs[r.toNat] := by
  unfold State.writeReg
  split
  · exact h r
  · rw [Vector.getElem_set]
    split
    · exact fit_fit _ _
    · exact h r

/-! ### The program counter -/

/-- At a state of the invariant the start address has no bit above `XLEN` to drop (R42). -/
theorem State.Inv.startValue_eq {s : State} (h : s.Inv) : s.startValue = s.pcStart := h.start

/-- After an instruction at a word of the text, `pc` counted with its carry stands at the word after it or at the end of the
text (R26, R27, R42). The carry before the step does not enter. -/
theorem OnlyReg.inText {s t : State} {rd : Reg} {w : Word32} (h : OnlyReg s t rd) (hs : s.Inv)
    (hf : s.fetchWord s.pcValue.toNat = some w) : ∃ k ≤ t.program.length,
      t.pcStart.toNat + 4 * k = t.pcValue.toNat + if t.wrapped then 2 ^ t.cfg.xlen.bits else 0 := by
  obtain ⟨k, hpc, hk⟩ := fetchWord_some hf
  have hlt : k < s.program.length := (List.getElem?_eq_some_iff.mp hk).1
  have hsum := advancePc_sum s
  rw [advancePc_pcValue, advancePc_wrapped] at hsum
  rw [hs.startValue_eq] at hpc
  refine ⟨k + 1, ?_, ?_⟩
  · rw [h.program]; exact hlt
  · rw [h.start, h.pc, h.wrapped, h.cfg, hsum]; omega

/-! ### The invariant -/

/-- An instruction that completes at a state where a word of the text is fetched keeps the invariant. -/
theorem exec_keeps_inv {i : Instr} {s t : State} {w : Word32} (hs : s.Inv)
    (hf : s.fetchWord s.pcValue.toNat = some w) (h : exec i s = .next t) : t.Inv := by
  obtain ⟨-, u, hu, rfl⟩ := exec_next h
  have ho := hu.onlyReg
  obtain ⟨v, hregs⟩ := hu.regs_eq
  rw [← advancePc_regs] at hregs
  exact {
    config  := by rw [ho.cfg]; exact hs.config
    slot0   := by simp only [hregs]; rw [writeReg_slot0]; exact hs.slot0
    widths  := by simp only [hregs]; rw [ho.cfg]; exact writeReg_widths hs.widths i.rd v
    pcWidth := by simp [State.nextPc]
    start   := by rw [ho.cfg, ho.start]; exact hs.start
    aligned := by rw [ho.start]; exact hs.aligned
    fits    := by rw [ho.start, ho.program, ho.cfg]; exact hs.fits
    inText  := ho.inText hs hf }

end Sys2Proof.Machine

namespace Sys2Proof.Proofs

open Sys2Proof.Machine

/-- Settles O6: the fault inside `exec` already records the word of the default encoding, which is the word fetched. -/
theorem stepRunsTheDecodedInstruction : Obligations.StepRunsTheDecodedInstruction := by
  intro s w i hf hd
  obtain rfl : encode i = w := encode_of_decode hd
  calc step s
      = recordWord (encode i) (exec i s) := by rw [step, stepWith_fetches decodeWord hf, hd]
    _ = exec i s := recordWord_encode_exec i s

/-- Settles O13: a step that goes on is `exec` of the instruction whose word stands at `pc`, and `exec` keeps the invariant
there. -/
theorem stepKeepsTheInvariant : Obligations.StepKeepsTheInvariant := by
  intro s t hs h
  obtain ⟨w, i, ⟨-, hf⟩, -, he⟩ := step_next h
  exact exec_keeps_inv hs hf he

end Sys2Proof.Proofs
end

section
/-!
PROOFS. The statements of 10_state.md: an instruction the hardware has completes and changes one register, `x0` is hardwired to
zero, and a result depends on nothing but the listed bytes of the sources.
-/

namespace Sys2Proof.Machine

open Sys2Proof.Statements

/-! ### Availability -/

/-- The grounds on which the hardware lacks a mnemonic (R76, R182) are those on which the frame of an instruction faults. -/
theorem lacks_iff (c : Config) (m : Mnemonic) : Lacks c m ↔ available c m = false := by
  rw [← Bool.not_eq_true, available_iff, not_not]; rfl

theorem available_of_not_lacks {c : Config} {m : Mnemonic} (h : ¬ Lacks c m) : available c m = true := by
  rwa [lacks_iff, Bool.not_eq_false] at h

/-- An instruction the hardware has completes, and changes its destination and `pc` only (R17, R26, R184). -/
theorem exec_completes {i : Instr} {s : State} (h : ¬ Lacks s.cfg i.mnemonic) :
    ∃ t, exec i s = .next t ∧ OnlyReg s t i.rd := by
  obtain ⟨u, hu, he⟩ := exec_available (available_of_not_lacks h)
  exact ⟨u.advancePc, he, hu.onlyReg⟩

/-! ### `x0` -/

/-- An instruction whose destination is `x0` changes no register (R21). -/
theorem OnlyReg.readReg_eq {s t : State} (h : OnlyReg s t 0#5) (r : Reg) : t.readReg r = s.readReg r := by
  by_cases hr : r = 0#5
  · rw [hr, readReg_zero, readReg_zero]
  · exact h.others r hr

/-! ### Each result on the bytes it reads (R23) -/

section
variable {a a' b b' : Word}

theorem subLow_congr (sb : Byte → Byte) (h : ∀ k ∈ [0, 1, 2, 3], byte a k = byte a' k) : subLow sb a = subLow sb a' :=
  wordOf_congr fun k hk => congrArg sb (h k (by simp; omega))

theorem subPair_congr (sb : Byte → Byte) (ha : ∀ k ∈ [0, 2], byte a k = byte a' k)
    (hb : ∀ k ∈ [1, 3], byte b k = byte b' k) : subPair sb a b = subPair sb a' b' := by
  simp only [subPair, ha 0 (by simp), ha 2 (by simp), hb 1 (by simp), hb 3 (by simp)]

theorem joinPair_congr (ha : ∀ k ∈ [0, 1], byte a k = byte a' k) (hb : ∀ k ∈ [2, 3], byte b k = byte b' k) :
    joinPair a b = joinPair a' b' := by
  simp only [joinPair, ha 0 (by simp), ha 1 (by simp), hb 2 (by simp), hb 3 (by simp)]

theorem mixPair_congr {c c' : Config} (mix : Word32 → Word32) (hc : c = c') (ha : ∀ k ∈ [0, 1], byte a k = byte a' k)
    (hb : ∀ k ∈ [2, 3], byte b k = byte b' k) : mixPair c.mixRow0 mix a b = mixPair c'.mixRow0 mix a' b' := by
  simp only [mixPair, hc, joinPair_congr ha hb]

theorem selectResult_congr (sb : Byte → Byte) (col : Byte → Word32) {bs : ByteSel}
    (ha : ∀ k ∈ [bs.toNat], byte a k = byte a' k) (hb : ∀ k ∈ [0, 1, 2, 3], byte b k = byte b' k) :
    selectResult sb col bs a b = selectResult sb col bs a' b' := by
  have hw : word b 0 = word b' 0 :=
    eq_of_byte_eq 4 rfl fun k hk => by rw [byte_low b hk, byte_low b' hk, hb k (by simp; omega)]
  simp only [selectResult, ha bs.toNat (by simp), hw]

/-- A Variant 4 instruction reads all eight bytes of a source, and so the whole register. -/
theorem eq_of_bytes8 (h : ∀ k ∈ List.range 8, byte a k = byte a' k) : a = a' :=
  eq_of_byte_eq 8 rfl fun k hk => h k (List.mem_range.mpr hk)

end

/-! ### Two executions of one instruction -/

/-- Two states an instruction cannot tell apart: equal parameters, and source registers with the same bytes where the
instruction reads them (R23). -/
structure SourcesAgree (i : Instr) (s s' : State) : Prop where
  cfg : s.cfg = s'.cfg
  rs1 : ∀ k ∈ readsRs1 i, byte (s.readReg i.rs1) k = byte (s'.readReg i.rs1) k
  rs2 : ∀ r, i.rs2 = some r → ∀ k ∈ readsRs2 i, byte (s.readReg r) k = byte (s'.readReg r) k

/-- `u` and `u'` are `s` and `s'` after one write of the same value to `rd`, in the same way (compare `OneWrite`). -/
inductive SameWrite (s s' : State) (rd : Reg) : State → State → Prop where
  | reg {v v' : Word} (h : v = v') : SameWrite s s' rd (s.writeReg rd v) (s'.writeReg rd v')
  | w32 {v v' : Word32} (h : v = v') : SameWrite s s' rd (s.writeW32 rd v) (s'.writeW32 rd v')

/-- Every instruction is its frame around a write whose value is the same in two states it cannot tell apart. -/
theorem exec_eq_perform_sameWrite (i : Instr) :
    ∃ body : State → State, (∀ s, exec i s = perform i s body) ∧
      ∀ s s', SourcesAgree i s s' → SameWrite s s' i.rd (body s) (body s') := by
  cases i with
  | v1Enc | v1Dec =>
    exact ⟨_, fun _ => rfl, fun _ _ h => .reg (congrArg (BitVec.setWidth 64) (subLow_congr _ h.rs1))⟩
  | v2SubEnc | v2SubDec => exact ⟨_, fun _ => rfl, fun _ _ h => .w32 (subPair_congr _ h.rs1 (h.rs2 _ rfl))⟩
  | v2MixEnc | v2MixDec => exact ⟨_, fun _ => rfl, fun _ _ h => .w32 (mixPair_congr _ h.cfg h.rs1 (h.rs2 _ rfl))⟩
  | v3Encs | v3Encm | v3Encsm | v3Decs | v3Decm | v3Decsm =>
    exact ⟨_, fun _ => rfl, fun _ _ h => .w32 (selectResult_congr _ _ h.rs1 (h.rs2 _ rfl))⟩
  | v4Sub => exact ⟨_, fun _ => rfl, fun _ _ h => .reg (congrArg subEight (eq_of_bytes8 h.rs1))⟩
  | v4Imix => exact ⟨_, fun _ => rfl, fun _ _ h => .reg (congrArg imixWords (eq_of_bytes8 h.rs1))⟩
  | v4EncsmLo | v4EncsLo | v4DecsmLo | v4DecsLo =>
    exact ⟨_, fun _ => rfl, fun _ _ h =>
      .reg (congrArg₂ (fun a b => lowHalf (v4Round a b _ _)) (eq_of_bytes8 h.rs1) (eq_of_bytes8 (h.rs2 _ rfl)))⟩
  | v4EncsmHi | v4EncsHi | v4DecsmHi | v4DecsHi =>
    exact ⟨_, fun _ => rfl, fun _ _ h =>
      .reg (congrArg₂ (fun a b => highHalf (v4Round a b _ _)) (eq_of_bytes8 h.rs1) (eq_of_bytes8 (h.rs2 _ rfl)))⟩

theorem exec_next_sameWrite {i : Instr} {s s' t t' : State} (hs : SourcesAgree i s s') (h : exec i s = .next t)
    (h' : exec i s' = .next t') : ∃ u u', SameWrite s s' i.rd u u' ∧ t = u.advancePc ∧ t' = u'.advancePc := by
  obtain ⟨body, he, hb⟩ := exec_eq_perform_sameWrite i
  rw [he] at h h'
  exact ⟨body s, body s', hb s s' hs, (perform_next h).2, (perform_next h').2⟩

/-! ### The destination after the same write -/

/-- Where no free value is drawn, R24 determines bits 63:32 of a 32-bit result. -/
theorem HighBits.unique {c : Config} {v h h' : Word32} (hd : Config.drawsHigh c = false) (hh : HighBits c v h)
    (hh' : HighBits c v h') : h = h' := by
  unfold HighBits at hh hh'
  split at hh
  case h_4 hx ha => simp [Config.drawsHigh, hx, ha] at hd
  all_goals simp_all

/-- The same `W32` in two states of equal parameters leaves the same low word, and the same register unless the upper half is
drawn freely (R24). -/
theorem Wrote32.agree {s s' t t' : State} {rd : Reg} {v : Word32} (hc : s.cfg = s'.cfg) (h : Wrote32 s t rd v)
    (h' : Wrote32 s' t' rd v) : word (t.readReg rd) 0 = word (t'.readReg rd) 0 ∧
      (Config.drawsHigh s.cfg = false → t.readReg rd = t'.readReg rd) := by
  have hlow : word (t.readReg rd) 0 = word (t'.readReg rd) 0 := h.low.trans h'.low.symm
  refine ⟨hlow, fun hd => ?_⟩
  by_cases hrd : rd = 0#5
  · rw [hrd, readReg_zero, readReg_zero]
  · exact eq_of_words2 hlow (HighBits.unique hd (h.high hrd) (hc ▸ h'.high hrd))

/-- The same write in two states of equal parameters, of either kind, leaves the same destination in the sense of
`Wrote32.agree`. -/
theorem SameWrite.agree {s s' u u' : State} {rd : Reg} (hc : s.cfg = s'.cfg) (h : SameWrite s s' rd u u') :
    word (u.advancePc.readReg rd) 0 = word (u'.advancePc.readReg rd) 0 ∧
      (Config.drawsHigh s.cfg = false → u.advancePc.readReg rd = u'.advancePc.readReg rd) := by
  cases h with
  | @reg v _ hv =>
    subst hv
    have heq : (s.writeReg rd v).readReg rd = (s'.writeReg rd v).readReg rd := by
      rw [readReg_writeReg_same, readReg_writeReg_same, hc]
    simp [heq]
  | @w32 v _ hv =>
    subst hv
    exact (writeW32_wrote s rd v).agree hc (writeW32_wrote s' rd v)

end Sys2Proof.Machine

namespace Sys2Proof.Proofs

open Sys2Proof.Machine

/-- Settles O10: an available instruction is one write to its destination inside the frame, an unavailable one the frame's
fault. -/
theorem execCompletesExactlyWhenImplemented : Obligations.ExecCompletesExactlyWhenImplemented :=
  fun i s => ⟨exec_completes, fun h => exec_unavailable ((lacks_iff s.cfg i.mnemonic).mp h)⟩

/-- Settles O12: with `rd = x0` the one register an instruction may change is `x0`, and with `rs1 = x0` `saes.v1.enc`
substitutes four zero bytes. -/
theorem zeroRegisterIsHardwired : Obligations.ZeroRegisterIsHardwired := by
  intro s
  refine ⟨readReg_zero s, writeReg_zero s, fun i hi hrd => ?_, fun rd hrd ha => ?_⟩
  · obtain ⟨t, he, ho⟩ := exec_completes hi
    rw [hrd] at ho
    exact ⟨t, he, ho.readReg_eq, ho.pc⟩
  · have hzero : subLow aesSbox 0#64 = 0x63636363#32 := by decide
    refine ⟨_, exec_v1Enc (available_of_not_lacks ha), ?_⟩
    rw [(writeZext_wrote s rd _).dest, if_neg hrd, readReg_zero, hzero]
    rfl

/-- Settles O19: both executions write the same value to the destination. -/
theorem resultReadsOnlyTheListedBytes : Obligations.ResultReadsOnlyTheListedBytes := by
  intro i s s' t t' hc h1 h2 h h'
  obtain ⟨u, u', hw, rfl, rfl⟩ := exec_next_sameWrite ⟨hc, h1, h2⟩ h h'
  exact hw.agree hc

end Sys2Proof.Proofs
end


section
/-!
PROOFS. The statements of 30_encoding.md: the decoder inverts the encoder and follows the opcode map, an unassigned word, or one
of an instruction the hardware lacks, raises IllegalInstruction, and the text holds its words little-endian.
-/

namespace Sys2Proof

/-! ### The operands of a mnemonic (R63 to R65) -/

/-- The mnemonic has a second source: every one but those of format R-unary (R65). -/
def Mnemonic.hasRs2 : Mnemonic → Bool
  | .v1Enc | .v1Dec | .v4Sub | .v4Imix => false
  | _ => true

/-- The mnemonic has a byte select: those of format R-bs, Variant 3 (R64). -/
def Mnemonic.hasBs : Mnemonic → Bool
  | .v3Encs | .v3Encm | .v3Encsm | .v3Decs | .v3Decm | .v3Decsm => true
  | _ => false

theorem Instr.isSome_rs2 (i : Instr) : i.rs2.isSome = i.mnemonic.hasRs2 := by cases i <;> rfl

theorem Instr.isSome_bs (i : Instr) : i.bs.isSome = i.mnemonic.hasBs := by cases i <;> rfl

/-- `sel` runs 0 to 21 (R69, R73). -/
theorem Mnemonic.sel_lt (m : Mnemonic) : m.sel.toNat < 22 := by cases m <;> decide

/-- Variant 3 is `sel` 6 to 11 (R69, R74). -/
theorem Mnemonic.hasBs_eq_false {m : Mnemonic} (h : m.sel.toNat ≤ 5 ∨ 12 ≤ m.sel.toNat) : m.hasBs = false := by
  revert h; cases m <;> decide

/-- The unary mnemonics are `sel` 0, 1, 12 and 13 (R69, R75). -/
theorem Mnemonic.hasRs2_eq_false {m : Mnemonic} (h : m.sel.toNat ∈ [0, 1, 12, 13]) : m.hasRs2 = false := by
  revert h; cases m <;> decide

/-! ### The fields of an instruction's word -/

section
variable (i : Instr)

@[simp] theorem opcodeField_encode : opcodeField (encode i) = majorOpcode := opcodeField_packFields ..
@[simp] theorem rdField_encode : rdField (encode i) = i.rd := rdField_packFields ..
@[simp] theorem funct3Field_encode : funct3Field (encode i) = 0#3 := funct3Field_packFields ..
@[simp] theorem rs1Field_encode : rs1Field (encode i) = i.rs1 := rs1Field_packFields ..
@[simp] theorem rs2Field_encode : rs2Field (encode i) = i.rs2.getD 0#5 := rs2Field_packFields ..
@[simp] theorem selField_encode : selField (encode i) = i.mnemonic.sel := selField_packFields ..
@[simp] theorem bsField_encode : bsField (encode i) = i.bs.getD 0#2 := bsField_packFields ..

/-- "`rs2 = 0` for the unary shape" (R69). -/
theorem rs2Field_encode_of_unary (h : i.mnemonic.hasRs2 = false) : rs2Field (encode i) = 0#5 := by
  rw [← i.isSome_rs2, Option.isSome_eq_false_iff, Option.isNone_iff_eq_none] at h
  rw [rs2Field_encode, h, Option.getD_none]

/-- "`bs = 0` outside Variant 3" (R69). -/
theorem bsField_encode_of_not_hasBs (h : i.mnemonic.hasBs = false) : bsField (encode i) = 0#2 := by
  rw [← i.isSome_bs, Option.isSome_eq_false_iff, Option.isNone_iff_eq_none] at h
  rw [bsField_encode, h, Option.getD_none]

end

/-! ### What decodes -/

theorem decodeUnary_of_fields {w : Word32} (mk : Reg → Reg → Instr) (hb : bsField w = 0#2) (hr : rs2Field w = 0#5) :
    decodeUnary w mk = .ok (mk (rdField w) (rs1Field w)) := by
  rw [decodeUnary, if_pos hb, if_pos hr]

theorem decodeBinary_of_fields {w : Word32} (mk : Reg → Reg → Reg → Instr) (hb : bsField w = 0#2) :
    decodeBinary w mk = .ok (mk (rdField w) (rs1Field w) (rs2Field w)) := by
  rw [decodeBinary, if_pos hb]

theorem decodeSelect_eq (w : Word32) (mk : Reg → Reg → Reg → ByteSel → Instr) :
    decodeSelect w mk = .ok (mk (rdField w) (rs1Field w) (rs2Field w) (bsField w)) := rfl

/-- A word of the opcode whose `sel` is a mnemonic's decodes to that mnemonic when the fields the mnemonic lacks are zero (R70,
R74, R75). -/
theorem decodeWord_of_fields {w : Word32} {m : Mnemonic} (ho : opcodeField w = majorOpcode) (hf : funct3Field w = 0#3)
    (hs : selField w = m.sel) (hb : m.hasBs = false → bsField w = 0#2) (hr : m.hasRs2 = false → rs2Field w = 0#5) :
    ∃ i, decodeWord w = .ok i ∧ i.mnemonic = m := by
  rw [decodeWord, if_neg (not_not.mpr ho), if_neg (not_not.mpr hf), hs]
  cases m with
  | v1Enc | v1Dec | v4Sub | v4Imix => exact ⟨_, decodeUnary_of_fields _ (hb rfl) (hr rfl), rfl⟩
  | v3Encs | v3Encm | v3Encsm | v3Decs | v3Decm | v3Decsm => exact ⟨_, decodeSelect_eq _ _, rfl⟩
  | _ => exact ⟨_, decodeBinary_of_fields _ (hb rfl), rfl⟩

/-- Decoding the word of an instruction gives the instruction back (R69, R70). -/
theorem decodeWord_encode (i : Instr) : decodeWord (encode i) = .ok i := by
  rw [decodeWord, if_neg (not_not.mpr (opcodeField_encode i)), if_neg (not_not.mpr (funct3Field_encode i)), selField_encode]
  cases i with
  | v1Enc | v1Dec | v4Sub | v4Imix =>
    refine (decodeUnary_of_fields _ (bsField_encode _) (rs2Field_encode _)).trans ?_
    rw [rdField_encode, rs1Field_encode]; rfl
  | v3Encs | v3Encm | v3Encsm | v3Decs | v3Decm | v3Decsm =>
    refine (decodeSelect_eq _ _).trans ?_
    rw [rdField_encode, rs1Field_encode, rs2Field_encode, bsField_encode]; rfl
  | _ =>
    refine (decodeBinary_of_fields _ (bsField_encode _)).trans ?_
    rw [rdField_encode, rs1Field_encode, rs2Field_encode]; rfl

/-- The decoder on four bytes in address order is the decoder on the word they hold (R44). -/
theorem decodeBytes_bytesOfWord {w : Word32} {i : Instr} (h : decodeWord w = .ok i) (rest : List Byte) :
    decodeBytes (bytesOfWord w ++ rest) = .ok (i, rest) := by
  have hw : wordOfBytes (w.extractLsb' 0 8) (w.extractLsb' 8 8) (w.extractLsb' 16 8) (w.extractLsb' 24 8) = w :=
    Machine.wordOf_byte w
  simp only [bytesOfWord, List.cons_append, List.nil_append, decodeBytes]
  rw [hw, h]

/-! ### What does not decode -/

@[simp] theorem decodeUnary_ne_foreign (w : Word32) (mk : Reg → Reg → Instr) :
    decodeUnary w mk ≠ .error .foreignOpcode := by
  unfold decodeUnary
  split
  · split <;> simp
  · simp

@[simp] theorem decodeBinary_ne_foreign (w : Word32) (mk : Reg → Reg → Reg → Instr) :
    decodeBinary w mk ≠ .error .foreignOpcode := by
  unfold decodeBinary
  split <;> simp

@[simp] theorem decodeSelect_ne_foreign (w : Word32) (mk : Reg → Reg → Reg → ByteSel → Instr) :
    decodeSelect w mk ≠ .error .foreignOpcode := by
  simp [decodeSelect_eq]

/-- Another major opcode is the decoder's first error (R77(b)). -/
theorem decodeWord_foreign {w : Word32} (h : opcodeField w ≠ majorOpcode) : decodeWord w = .error .foreignOpcode :=
  if_pos h

/-- Another `funct3` is an error (R77(a)). -/
theorem decodeWord_of_funct3_ne {w : Word32} (ho : opcodeField w = majorOpcode) (hf : funct3Field w ≠ 0#3) :
    decodeWord w = .error .funct3NotZero := by
  rw [decodeWord, if_neg (not_not.mpr ho), if_pos hf]

/-- No word of the major opcode is rejected as foreign (R77(b)). -/
theorem decodeWord_ne_foreign {w : Word32} (h : opcodeField w = majorOpcode) : decodeWord w ≠ .error .foreignOpcode := by
  rw [decodeWord, if_neg (not_not.mpr h)]
  split
  · simp
  · split <;> simp

/-- A word is rejected if it is the word of no instruction. -/
theorem decodeWord_error_of_encode_ne {w : Word32} (h : ∀ i, encode i ≠ w) : ∃ e, decodeWord w = .error e := by
  cases hd : decodeWord w with
  | error e => exact ⟨e, rfl⟩
  | ok i => exact absurd (encode_of_decode hd) (h i)

/-! ### The opcode map (R69) -/

/-- Where a mask has all ones, a word that fits has the match's bits. -/
theorem extractLsb'_eq_of_and_eq {w mask bits : Word32} (h : w &&& mask = bits) {k n : Nat}
    (hm : mask.extractLsb' k n = BitVec.allOnes n) : w.extractLsb' k n = bits.extractLsb' k n := by
  rw [← h, BitVec.extractLsb'_and, hm, BitVec.and_allOnes]

/-- A row of the map fixes the opcode, `funct3`, `sel`, and the fields its mnemonic lacks. -/
theorem fields_of_fits {row : OpcodeRow} (hrow : row ∈ opcodeMap) {w : Word32} (h : w &&& row.mask = row.matchBits) :
    opcodeField w = majorOpcode ∧ funct3Field w = 0#3 ∧ selField w = row.mnemonic.sel ∧
      (row.mnemonic.hasBs = false → bsField w = 0#2) ∧ (row.mnemonic.hasRs2 = false → rs2Field w = 0#5) := by
  have hmask : ∀ row ∈ opcodeMap, opcodeField row.mask = .allOnes 7 ∧ funct3Field row.mask = .allOnes 3 ∧
      selField row.mask = .allOnes 5 ∧ (row.mnemonic.hasBs = false → bsField row.mask = .allOnes 2) ∧
      (row.mnemonic.hasRs2 = false → rs2Field row.mask = .allOnes 5) := by decide
  have hbits : ∀ row ∈ opcodeMap, opcodeField row.matchBits = majorOpcode ∧ funct3Field row.matchBits = 0#3 ∧
      selField row.matchBits = row.mnemonic.sel ∧ bsField row.matchBits = 0#2 ∧ rs2Field row.matchBits = 0#5 := by decide
  obtain ⟨mo, mf, ms, mb, mr⟩ := hmask row hrow
  obtain ⟨bo, bf, bs, bb, br⟩ := hbits row hrow
  exact ⟨(extractLsb'_eq_of_and_eq h mo).trans bo, (extractLsb'_eq_of_and_eq h mf).trans bf,
    (extractLsb'_eq_of_and_eq h ms).trans bs, fun hn => (extractLsb'_eq_of_and_eq h (mb hn)).trans bb,
    fun hn => (extractLsb'_eq_of_and_eq h (mr hn)).trans br⟩

/-- A word that fits a row decodes to the row's mnemonic (R70). -/
theorem decodeWord_of_fits {row : OpcodeRow} (hrow : row ∈ opcodeMap) {w : Word32} (h : w &&& row.mask = row.matchBits) :
    ∃ i, decodeWord w = .ok i ∧ i.mnemonic = row.mnemonic := by
  obtain ⟨ho, hf, hs, hb, hr⟩ := fields_of_fits hrow h
  exact decodeWord_of_fields ho hf hs hb hr

open Laws.OpcodeMap in
/-- The word of every instruction fits the row of its mnemonic. -/
theorem encode_fits_row (i : Instr) : Statement i := by
  cases i
  exacts [v1Enc .., v1Dec .., v2SubEnc .., v2SubDec .., v2MixEnc .., v2MixDec .., v3Encs .., v3Encm .., v3Encsm ..,
    v3Decs .., v3Decm .., v3Decsm .., v4Sub .., v4Imix .., v4EncsmLo .., v4EncsmHi .., v4EncsLo .., v4EncsHi ..,
    v4DecsmLo .., v4DecsmHi .., v4DecsLo .., v4DecsHi ..]

/-- A word that fits no row is the word of no instruction. -/
theorem encode_ne_of_fits_none {w : Word32} (h : ∀ row ∈ opcodeMap, w &&& row.mask ≠ row.matchBits) (i : Instr) :
    encode i ≠ w := by
  rintro rfl
  obtain ⟨row, hrow, -, hfit⟩ := encode_fits_row i
  exact h row (List.mem_of_getElem? hrow) hfit

/-- A mnemonic has one row. -/
theorem row_eq_of_mnemonic_eq {row₁ row₂ : OpcodeRow} (h₁ : row₁ ∈ opcodeMap) (h₂ : row₂ ∈ opcodeMap)
    (h : row₁.mnemonic = row₂.mnemonic) : row₁ = row₂ := by
  have hplace : ∀ row ∈ opcodeMap, opcodeMap[row.mnemonic.sel.toNat]? = some row := by decide
  exact Option.some.inj (by rw [← hplace row₁ h₁, ← hplace row₂ h₂, h])

end Sys2Proof

namespace Sys2Proof.Machine

open Sys2Proof.Statements

/-! ### Steps that run no instruction -/

/-- A step whose word the decoder rejects, but not as foreign, raises IllegalInstruction (R180, R183). -/
theorem step_of_decode_error {s : State} {w : Word32} {e : DecodeError} (hf : Fetches s w) (hd : decodeWord w = .error e)
    (ho : opcodeField w = majorOpcode) : step s = .fault (.illegalInstruction s.pcValue w) := by
  have he : e ≠ .foreignOpcode := fun h => decodeWord_ne_foreign ho (h ▸ hd)
  rw [step, stepWith_fetches decodeWord hf, hd]
  cases e with
  | foreignOpcode => exact absurd rfl he
  | _ => rfl

/-- A step whose word has another major opcode is refused (R77(b)). -/
theorem step_of_foreign {s : State} {w : Word32} (hf : Fetches s w) (ho : opcodeField w ≠ majorOpcode) :
    step s = .refused (.foreignOpcode w) := by
  rw [step, stepWith_fetches decodeWord hf, decodeWord_foreign ho]

/-! ### The bytes of the text (R44) -/

/-- The bytes of the word fetched at an address stand from that address on, lowest first. -/
theorem fetchByte_of_fetchWord {s : State} {a : Nat} {w : Word32} (h : s.fetchWord a = some w) {j : Nat} (hj : j < 4) :
    s.fetchByte (a + j) = some (byte w j) := by
  obtain ⟨k, rfl, hk⟩ := fetchWord_some h
  have hoff : s.startValue.toNat + 4 * k + j - s.startValue.toNat = 4 * k + j := by omega
  have hdiv : (4 * k + j) / 4 = k := by omega
  have hmod : (4 * k + j) % 4 = j := by omega
  rw [State.fetchByte, if_pos (by omega), hoff, hdiv, hmod, hk, Option.map_some]

end Sys2Proof.Machine

namespace Sys2Proof.Proofs

open Sys2Proof.Machine Sys2Proof.Statements

/-- Settles O1: the fields of an encoded word are the instruction's, so the decoder's arm for its `sel` gives it back. -/
theorem decodeInvertsEncode : Obligations.DecodeInvertsEncode :=
  fun i => ⟨decodeWord_encode i, decodeBytes_bytesOfWord (decodeWord_encode i)⟩

/-- Settles O2: a row fixes every field its mnemonic lacks, and a word that decodes is an instruction's word, whose fields are
its operands and which fits its mnemonic's row. -/
theorem decodeFollowsTheOpcodeMap : Obligations.DecodeFollowsTheOpcodeMap := by
  intro w
  refine ⟨fun row hrow hfit => ?_, fun hnone => decodeWord_error_of_encode_ne (encode_ne_of_fits_none hnone),
    fun row₁ h₁ row₂ h₂ hfit₁ hfit₂ => ?_⟩
  · obtain ⟨i, hd, hm⟩ := decodeWord_of_fits hrow hfit
    obtain rfl : encode i = w := encode_of_decode hd
    refine ⟨i, hd, hm, (rdField_encode i).symm, (rs1Field_encode i).symm, fun r hr => ?_, fun b hb => ?_⟩
    · exact ((rs2Field_encode i).trans (by rw [hr, Option.getD_some])).symm
    · exact ((bsField_encode i).trans (by rw [hb, Option.getD_some])).symm
  · obtain ⟨i₁, hd₁, hm₁⟩ := decodeWord_of_fits h₁ hfit₁
    obtain ⟨i₂, hd₂, hm₂⟩ := decodeWord_of_fits h₂ hfit₂
    obtain rfl : i₁ = i₂ := Except.ok.inj (hd₁.symm.trans hd₂)
    exact row_eq_of_mnemonic_eq h₁ h₂ (hm₁.symm.trans hm₂)

/-- Settles O4: in each of the three cases a field of the word is one that no instruction's word has. -/
theorem unassignedWordsRaise : Obligations.UnassignedWordsRaise := by
  intro s w hf ho hf3 hcase
  obtain ⟨e, he⟩ : ∃ e, decodeWord w = .error e := by
    refine decodeWord_error_of_encode_ne fun i hi => ?_
    have hs : w.extractLsb' 25 5 = i.mnemonic.sel := hi ▸ selField_encode i
    rw [hs] at hcase
    rcases hcase with hsel | ⟨hsel, hbs⟩ | ⟨hsel, -, hrs2⟩
    · exact absurd i.mnemonic.sel_lt (by omega)
    · exact hbs (hi ▸ bsField_encode_of_not_hasBs i (Mnemonic.hasBs_eq_false (by omega)))
    · exact hrs2 (hi ▸ rs2Field_encode_of_unary i (Mnemonic.hasRs2_eq_false hsel))
  exact ⟨⟨e, he⟩, step_of_decode_error hf he ho⟩

/-- Settles O5: another `funct3` is a decoding error, another major opcode the decoder's refusal, and an instruction with
`rd = x0` runs as any other. -/
theorem otherFunct3RaisesOtherOpcodeIsRefused : Obligations.OtherFunct3RaisesOtherOpcodeIsRefused := by
  intro s w hf
  refine ⟨fun ho hf3 => step_of_decode_error hf (decodeWord_of_funct3_ne ho hf3) ho, step_of_foreign hf,
    fun i hd hl hrd => ?_⟩
  obtain ⟨-, -, hcompletes, -⟩ := zeroRegisterIsHardwired s
  rw [stepRunsTheDecodedInstruction s w i hf hd]
  exact hcompletes i hl hrd

/-- Settles O8: the step is `exec` of the instruction, whose frame raises the fault with the word of the default encoding, which
is the word fetched. -/
theorem rv64OnlyOrUnimplementedWordsRaise : Obligations.Rv64OnlyOrUnimplementedWordsRaise := by
  intro s w i hf hd hl
  rw [stepRunsTheDecodedInstruction s w i hf hd, exec_unavailable ((lacks_iff s.cfg i.mnemonic).mp hl), encode_of_decode hd]

/-- Settles O21: byte `j` of the word at `PC_START + 4k` stands `4k + j` past the start, and the four bytes in address order are
the word. -/
theorem textBytesAreLittleEndian : Obligations.TextBytesAreLittleEndian :=
  fun _ _ _ hw => ⟨fun _ hj => fetchByte_of_fetchWord hw hj, fun _ rest hd => decodeBytes_bytesOfWord hd rest⟩

end Sys2Proof.Proofs
end

section
/-!
PROOFS. The statements of 40_aes_primitives.md: GFMUL is the field product modulo 0x11B, the S-box is the affine map of the field
inverse, and rotation, InvMixCol and the row shifts act byte by byte as the spec says.
-/

namespace Sys2Proof.Machine

open Sys2Proof.Statements

/-! ### GFMUL as a product (R94)

`GFMUL(·, c)` is a sum of powers of `xtime`, so any two such maps commute; with 1 neutral on the left, the product is
commutative and associative. -/

theorem xtime_pickBit (c : Byte) (k : Nat) (v : Byte) : xtime (pickBit c k v) = pickBit c k (xtime v) := by
  unfold pickBit; split <;> simp

theorem pickBit_xor_selector (c d : Byte) (k : Nat) (v : Byte) :
    pickBit (c ^^^ d) k v = pickBit c k v ^^^ pickBit d k v := by
  unfold pickBit
  rw [BitVec.getLsbD_xor]
  cases c.getLsbD k <;> cases d.getLsbD k <;> simp

theorem gfmul_xtime (a c : Byte) : gfmul (xtime a) c = xtime (gfmul a c) := by
  simp only [gfmul, xtime_xor, xtime_pickBit]

theorem gfmul_pickBit (a b c : Byte) (k : Nat) : gfmul (pickBit b k a) c = pickBit b k (gfmul a c) := by
  unfold pickBit; split
  · rfl
  · exact gfmul_zero c

theorem gfmul_right_comm (a b c : Byte) : gfmul (gfmul a b) c = gfmul (gfmul a c) b := by
  conv_lhs => rw [gfmul.eq_def a b]
  simp only [gfmul_xor, gfmul_pickBit, gfmul_xtime]
  rw [gfmul.eq_def (gfmul a c) b]

/-- 1 is neutral on the left: every byte is the sum of the powers `xtime^k(1)` over its bits. -/
theorem one_gfmul : ∀ a : Byte, gfmul 1#8 a = a := by decide

theorem gfmul_comm (a b : Byte) : gfmul a b = gfmul b a := by
  simpa only [one_gfmul] using gfmul_right_comm 1#8 a b

theorem gfmul_assoc (a b c : Byte) : gfmul (gfmul a b) c = gfmul a (gfmul b c) := by
  rw [gfmul_comm a b, gfmul_right_comm, gfmul_comm]

theorem gfmul_xor_right (a b c : Byte) : gfmul a (b ^^^ c) = gfmul a b ^^^ gfmul a c := by
  simp only [gfmul_comm a, gfmul_xor]

/-- Multiplicative inverses are unique. -/
theorem eq_of_gfmul_eq_one {a i j : Byte} (hi : gfmul a i = 1#8) (hj : gfmul a j = 1#8) : i = j :=
  calc i = gfmul (gfmul a j) i := by rw [hj, one_gfmul]
    _ = gfmul (gfmul a i) j := gfmul_right_comm a j i
    _ = j := by rw [hi, one_gfmul]

/-! ### GFMUL and the product of polynomials (R94) -/

theorem gfmul_eq_foldl (a b : Byte) :
    gfmul a b = (List.range 8).foldl (fun acc k => if b.getLsbD k then acc ^^^ xtime^[k] a else acc) 0#8 := by
  have hpick (acc : Byte) (k : Nat) : (if b.getLsbD k then acc ^^^ xtime^[k] a else acc) =
      acc ^^^ pickBit b k (xtime^[k] a) := by
    unfold pickBit; split
    · rfl
    · exact BitVec.xor_zero.symm
  simp only [hpick, List.range_succ, List.range_zero, List.nil_append, List.foldl_append, List.foldl_cons, List.foldl_nil,
    BitVec.zero_xor]
  rfl

/-- What holds of 0 and of the powers of `x` below `x^8`, and of a sum when it holds of the summands, holds of every byte. -/
theorem byte_xor_induction {P : Byte → Prop} (hzero : P 0#8) (hxor : ∀ a b, P a → P b → P (a ^^^ b))
    (hbit : ∀ k < 8, P (1#8 <<< k)) (a : Byte) : P a := by
  have hpower : ∀ k ∈ List.range 8, xtime^[k] 1#8 = 1#8 <<< k := by decide
  rw [← one_gfmul a, gfmul_eq_foldl]
  refine List.foldlRecOn _ _ hzero fun acc hacc k hk => ?_
  split
  · rw [hpower k hk]; exact hxor _ _ hacc (hbit k (List.mem_range.mp hk))
  · exact hacc

theorem polyMul_xor_left (a b c : BitVec 16) : polyMul (a ^^^ b) c = polyMul a c ^^^ polyMul b c := by
  refine List.foldl_hom₂ _ (· ^^^ ·) _ _ _ 0#16 0#16 fun x y k => ?_
  simp only [BitVec.shiftLeft_xor_distrib]
  split
  · ac_rfl
  · rfl

theorem polyMul_xor_right (a b c : BitVec 16) : polyMul a (b ^^^ c) = polyMul a b ^^^ polyMul a c := by
  refine List.foldl_hom₂ _ (· ^^^ ·) _ _ _ 0#16 0#16 fun x y k => ?_
  have hcancel (v : BitVec 16) : (x ^^^ v) ^^^ (y ^^^ v) = x ^^^ y := by
    have hswap : (x ^^^ v) ^^^ (y ^^^ v) = (x ^^^ y) ^^^ (v ^^^ v) := by ac_rfl
    rw [hswap, BitVec.xor_self, BitVec.xor_zero]
  rw [BitVec.getLsbD_xor]
  cases b.getLsbD k <;> cases c.getLsbD k
  · rfl
  · simp only [Bool.false_xor, if_true, Bool.false_eq_true, if_false, BitVec.xor_assoc]
  · simp only [Bool.xor_false, if_true, Bool.false_eq_true, if_false]; ac_rfl
  · exact hcancel _

/-- `r` is a remainder of `p` on division by `x^8 + x^4 + x^3 + x + 1`. -/
def ReducesTo (p : BitVec 16) (r : Byte) : Prop := ∃ q : Byte, p = polyMul (q.setWidth 16) 0x11B#16 ^^^ r.setWidth 16

theorem ReducesTo.zero : ReducesTo 0#16 0#8 := ⟨0#8, by decide⟩

theorem ReducesTo.xor {p p' : BitVec 16} {r r' : Byte} (h : ReducesTo p r) (h' : ReducesTo p' r') :
    ReducesTo (p ^^^ p') (r ^^^ r') := by
  obtain ⟨q, rfl⟩ := h
  obtain ⟨q', rfl⟩ := h'
  refine ⟨q ^^^ q', ?_⟩
  rw [BitVec.setWidth_xor, BitVec.setWidth_xor, polyMul_xor_left]
  ac_rfl

/-- The quotients of `x^0` to `x^14` by `x^8 + x^4 + x^3 + x + 1`. -/
def powerQuotients : List Byte := [0, 0, 0, 0, 0, 0, 0, 0, 0x01, 0x02, 0x04, 0x08, 0x11, 0x23, 0x46]

theorem reducesTo_gfmul_powers {j k : Nat} (hj : j < 8) (hk : k < 8) :
    ReducesTo (polyMul ((1#8 <<< j).setWidth 16) ((1#8 <<< k).setWidth 16)) (gfmul (1#8 <<< j) (1#8 <<< k)) := by
  have hquot : ∀ j < 8, ∀ k < 8, polyMul ((1#8 <<< j).setWidth 16) ((1#8 <<< k).setWidth 16) =
      polyMul ((powerQuotients.getD (j + k) 0).setWidth 16) 0x11B#16 ^^^ (gfmul (1#8 <<< j) (1#8 <<< k)).setWidth 16 := by
    decide
  exact ⟨_, hquot j hj k hk⟩

theorem zero_polyMul (c : BitVec 16) : polyMul 0#16 c = 0#16 := by
  simpa using polyMul_xor_left 0#16 0#16 c

theorem polyMul_zero (a : BitVec 16) : polyMul a 0#16 = 0#16 := by
  simpa using polyMul_xor_right a 0#16 0#16

/-- GFMUL is the reduced product: both sides are additive in either argument and agree on the powers of `x`. -/
theorem reducesTo_gfmul (a c : Byte) : ReducesTo (polyMul (a.setWidth 16) (c.setWidth 16)) (gfmul a c) := by
  induction a using byte_xor_induction with
  | hzero => rw [gfmul_zero, BitVec.setWidth_zero, zero_polyMul]; exact .zero
  | hxor a b ha hb => rw [gfmul_xor, BitVec.setWidth_xor, polyMul_xor_left]; exact ha.xor hb
  | hbit j hj =>
    induction c using byte_xor_induction with
    | hzero => rw [gfmul_comm, gfmul_zero, BitVec.setWidth_zero, polyMul_zero]; exact .zero
    | hxor c d hc hd => rw [gfmul_xor_right, BitVec.setWidth_xor, polyMul_xor_right]; exact hc.xor hd
    | hbit k hk => exact reducesTo_gfmul_powers hj hk

/-! ### The S-box (R91) -/

/-- The inverse of the affine map of the S-box. -/
def unaffine (b : Byte) : Byte := b.rotateLeft 1 ^^^ b.rotateLeft 3 ^^^ b.rotateLeft 6 ^^^ 0x05#8

theorem affine_unaffine : ∀ b : Byte, affine (unaffine b) = b := by decide

theorem unaffine_aesSbox_zero : unaffine (aesSbox 0#8) = 0#8 := by decide

/-- Undoing the affine map on an entry of the table leaves the field inverse. -/
theorem gfmul_unaffine_aesSbox : ∀ a : Byte, a ≠ 0#8 → gfmul a (unaffine (aesSbox a)) = 1#8 := by decide

theorem aesSbox_eq_affine {a i : Byte} (h : if a = 0#8 then i = 0#8 else gfmul a i = 1#8) : aesSbox a = affine i := by
  suffices hi : i = unaffine (aesSbox a) by rw [hi, affine_unaffine]
  split at h
  · next ha => rw [h, ha, unaffine_aesSbox_zero]
  · next ha => exact eq_of_gfmul_eq_one h (gfmul_unaffine_aesSbox a ha)

/-! ### Rotation (R95) -/

/-- `ROTL32(u, n)` is `cat(u[31-n:0], u[31:32-n])`. -/
theorem rotl32_eq_append (u : Word32) {m n : Nat} (h : m + n = 32) :
    rotl32 u n = (u.extractLsb' 0 m ++ u.extractLsb' m n).cast h := by
  apply BitVec.eq_of_getLsbD_eq; intro k hk
  have hm : 32 - n = m := by omega
  simp only [rotl32, hm, BitVec.getLsbD_or, BitVec.getLsbD_shiftLeft, BitVec.getLsbD_ushiftRight, BitVec.getLsbD_cast,
    BitVec.getLsbD_append, BitVec.getLsbD_extractLsb', hk]
  by_cases hkn : k < n
  · simp [hkn]
  · have hge : u.getLsbD (m + k) = false := BitVec.getLsbD_of_ge _ _ (by omega)
    have hlt : k - n < m := by omega
    simp [hkn, hge, hlt]

/-! ### MixCol and InvMixCol as circulant matrices (R96, R97) -/

/-- Row `r` of the circulant matrix with first row `c0 c1 c2 c3` times the column `w`. -/
def circulantRow (c0 c1 c2 c3 : Byte) (w : Word32) (r : Nat) : Byte :=
  gfmul (byte w r) c0 ^^^ gfmul (byte w ((r + 1) % 4)) c1 ^^^ gfmul (byte w ((r + 2) % 4)) c2 ^^^
    gfmul (byte w ((r + 3) % 4)) c3

theorem byte_mixCol (w : Word32) {r : Nat} (hr : r < 4) : byte (mixCol w) r = circulantRow 2#8 3#8 1#8 1#8 w r := by
  match r, hr with
  | 0, _ => simp [mixCol, circulantRow, gfmul_1]
  | 1, _ | 2, _ | 3, _ =>
    simp only [mixCol, circulantRow, gfmul_1, byte_cat4_1, byte_cat4_2, byte_cat4_3, Nat.reduceAdd, Nat.reduceMod]
    ac_rfl

theorem byte_invMixCol (w : Word32) {r : Nat} (hr : r < 4) :
    byte (invMixCol w) r = circulantRow 14#8 11#8 13#8 9#8 w r := by
  match r, hr with
  | 0, _ => simp [invMixCol, circulantRow]
  | 1, _ | 2, _ | 3, _ =>
    simp only [invMixCol, circulantRow, byte_cat4_1, byte_cat4_2, byte_cat4_3, Nat.reduceAdd, Nat.reduceMod]
    ac_rfl

/-- The product of two circulant matrices is the circulant matrix of the cyclic convolution of their first rows. -/
theorem circulantRow_circulantRow {c0 c1 c2 c3 d0 d1 d2 d3 : Byte} {v w : Word32}
    (hv : ∀ r < 4, byte v r = circulantRow d0 d1 d2 d3 w r) {r : Nat} (hr : r < 4) :
    circulantRow c0 c1 c2 c3 v r = circulantRow
      (gfmul d0 c0 ^^^ gfmul d3 c1 ^^^ gfmul d2 c2 ^^^ gfmul d1 c3)
      (gfmul d1 c0 ^^^ gfmul d0 c1 ^^^ gfmul d3 c2 ^^^ gfmul d2 c3)
      (gfmul d2 c0 ^^^ gfmul d1 c1 ^^^ gfmul d0 c2 ^^^ gfmul d3 c3)
      (gfmul d3 c0 ^^^ gfmul d2 c1 ^^^ gfmul d1 c2 ^^^ gfmul d0 c3) w r := by
  have h0 := hv 0 (by decide)
  have h1 := hv 1 (by decide)
  have h2 := hv 2 (by decide)
  have h3 := hv 3 (by decide)
  match r, hr with
  | 0, _ | 1, _ | 2, _ | 3, _ =>
    simp only [circulantRow, h0, h1, h2, h3, gfmul_xor, gfmul_xor_right, gfmul_assoc, Nat.reduceAdd, Nat.reduceMod]
    ac_rfl

/-- The circulant matrix with first row `1 0 0 0` is the identity. -/
theorem circulantRow_one (w : Word32) (r : Nat) : circulantRow 1#8 0#8 0#8 0#8 w r = byte w r := by
  simp only [circulantRow, gfmul_1, gfmul_comm _ 0#8, gfmul_zero, BitVec.xor_zero]

theorem invMixCol_mixCol (w : Word32) : invMixCol (mixCol w) = w :=
  eq_of_byte_eq 4 rfl fun r hr => by
    rw [byte_invMixCol _ hr, circulantRow_circulantRow (fun _ => byte_mixCol w) hr]
    exact circulantRow_one w r

theorem mixCol_invMixCol (w : Word32) : mixCol (invMixCol w) = w :=
  eq_of_byte_eq 4 rfl fun r hr => by
    rw [byte_mixCol _ hr, circulantRow_circulantRow (fun _ => byte_invMixCol w) hr]
    exact circulantRow_one w r

theorem byte_setWidth32_zero (x : Byte) : byte (x.setWidth 32) 0 = x := by
  apply BitVec.eq_of_getLsbD_eq; intro k hk
  rw [getLsbD_byte _ _ _ hk]
  simp; omega

theorem byte_setWidth32_of_pos (x : Byte) {i : Nat} (hi : 0 < i) : byte (x.setWidth 32) i = 0#8 := by
  apply BitVec.eq_of_getLsbD_eq; intro k hk
  rw [getLsbD_byte _ _ _ hk, BitVec.getLsbD_setWidth, BitVec.getLsbD_of_ge x _ (by omega)]
  simp

/-- The first column of the matrix: the image of a byte in row 0. -/
theorem invMixCol_setWidth (x : Byte) :
    invMixCol (x.setWidth 32) = cat4 (gfmul x 11#8) (gfmul x 13#8) (gfmul x 9#8) (gfmul x 14#8) := by
  simp [invMixCol, byte_setWidth32_zero, byte_setWidth32_of_pos]

/-! ### The row shifts (R98, R99) -/

/-- The source of the byte in row `r`, column `c` is in column `c + r` (R98). -/
theorem shiftIndex_row_col {r : Nat} (hr : r < 4) (c : Nat) : shiftIndex (r + 4 * c) = r + 4 * ((c + r) % 4) := by
  unfold shiftIndex; omega

/-- The source of the byte in row `r`, column `c` is in column `c - r` (R99). -/
theorem invShiftIndex_row_col {r : Nat} (hr : r < 4) (c : Nat) :
    invShiftIndex (r + 4 * c) = r + 4 * ((c + 4 - r) % 4) := by
  unfold invShiftIndex; omega

theorem shiftIndex_invShiftIndex {i : Nat} (hi : i < 16) : shiftIndex (invShiftIndex i) = i := by
  unfold shiftIndex invShiftIndex; omega

theorem invShiftRows_shiftRows (t : Block) : invShiftRows (shiftRows t) = t :=
  eq_of_byte_eq 16 rfl fun i hi => by
    rw [byte_invShiftRows _ hi, byte_shiftRows _ (invShiftIndex_lt i), shiftIndex_invShiftIndex hi]

/-- The index table of ShiftRows (R98). -/
theorem shiftIndex_eq_getElem : ∀ (k : Nat) (h : k < 16),
    shiftIndex k = [0, 5, 10, 15, 4, 9, 14, 3, 8, 13, 2, 7, 12, 1, 6, 11][k]'h := by decide

/-- The index table of InvShiftRows (R99). -/
theorem invShiftIndex_eq_getElem : ∀ (k : Nat) (h : k < 16),
    invShiftIndex k = [0, 13, 10, 7, 4, 1, 14, 11, 8, 5, 2, 15, 12, 9, 6, 3][k]'h := by decide

end Sys2Proof.Machine

namespace Sys2Proof.Proofs

open Sys2Proof.Machine

/-- Settles O50: undoing the affine map on a table entry leaves the inverse, which is unique; InvAESSBox undoes AESSBox on both
sides. -/
theorem sboxIsTheAffineMapOfTheInverse : Obligations.SboxIsTheAffineMapOfTheInverse := by
  have hfix : ∀ a : Byte, aesSbox a ≠ a := by decide
  exact ⟨fun _ _ h => aesSbox_eq_affine h, fun a ha => ⟨_, gfmul_unaffine_aesSbox a ha⟩,
    fun _ _ h => Function.LeftInverse.injective invAesSbox_aesSbox h,
    fun b => ⟨_, aesSbox_invAesSbox b⟩, hfix, by decide⟩

/-- Settles O51: the product of polynomials and GFMUL are additive in both arguments, so it is enough that they agree modulo
0x11B on the powers of `x`. -/
theorem gfmulIsTheReducedPolynomialProduct : Obligations.GfmulIsTheReducedPolynomialProduct := by
  refine ⟨reducesTo_gfmul, fun a => ?_, gfmul_eq_foldl, gfmul_zero, gfmul_xor, by decide, by decide, by decide⟩
  rw [gfmul_1, gfmul_2, gfmul_3, gfmul_9, gfmul_11, gfmul_13, gfmul_14]
  refine ⟨rfl, rfl, ?_, ?_, ?_, ?_, ?_⟩ <;> ac_rfl

/-- Settles O52: a rotation is a concatenation of two slices, and moves bytes as `byte_rotl32` says. -/
theorem rotl32MovesBytes : Obligations.Rotl32MovesBytes := by
  refine ⟨fun u => ⟨rotl32_zero u, rotl32_eq_append u rfl, rotl32_eq_append u rfl, rotl32_eq_append u rfl⟩,
    fun u bs i hi => ?_, by decide, by decide⟩
  have hsource : ((i + bs.toNat) % 4 + 4 - bs.toNat) % 4 = i := by omega
  rw [byte_rotl32 u bs.isLt (Nat.mod_lt _ (by decide)), hsource]

/-- Settles O53: both are circulant matrices, and the cyclic convolution of their first rows is that of the identity. -/
theorem invMixColIsTheInverseMatrix : Obligations.InvMixColIsTheInverseMatrix :=
  ⟨fun w _ hr => byte_invMixCol w hr, invMixCol_setWidth, fun w => ⟨invMixCol_mixCol w, mixCol_invMixCol w⟩,
    by decide, by decide, by decide⟩

/-- Settles O55: a byte of a shifted state is the byte at its source index, which the tables list. -/
theorem shiftRowsRotatesTheRows : Obligations.ShiftRowsRotatesTheRows := by
  refine ⟨fun t r c hr hc => ⟨?_, ?_⟩, fun t k hk => ⟨?_, ?_⟩, invShiftRows_shiftRows⟩
  · rw [byte_shiftRows t (by omega), shiftIndex_row_col hr]
  · rw [byte_invShiftRows t (by omega), invShiftIndex_row_col hr]
  · rw [byte_shiftRows t hk, shiftIndex_eq_getElem k hk]
  · rw [byte_invShiftRows t hk, invShiftIndex_eq_getElem k hk]

end Sys2Proof.Proofs
end

section
/-!
PROOFS. The statements of 41_variant1.md: each instruction substitutes the four low bytes of its source, each in its own
position, and zero-extends the result.
-/

namespace Sys2Proof.Machine

/-- The four substituted bytes, listed from the highest (R110, R111). -/
theorem subLow_eq_cat4 (sb : Byte → Byte) (v : Word) :
    subLow sb v = cat4 (sb (byte v 3)) (sb (byte v 2)) (sb (byte v 1)) (sb (byte v 0)) := rfl

/-- The one write of a Variant 1 instruction, in the bytes of the source (R110, R111). -/
theorem writeZext_subLow_wrote (s : State) (rd : Reg) (sb : Byte → Byte) (v : Word) :
    Wrote s (s.writeZext rd (subLow sb v)).advancePc rd
      ((cat4 (sb (byte v 3)) (sb (byte v 2)) (sb (byte v 1)) (sb (byte v 0))).setWidth 64) := by
  rw [← subLow_eq_cat4]
  exact writeZext_wrote s rd (subLow sb v)

end Sys2Proof.Machine

namespace Sys2Proof.Proofs

open Sys2Proof.Machine

/-- Settles O25: an available `saes.v1.enc` is the zero-extending write of the four bytes under AESSBox. -/
theorem v1EncSubstitutesTheLowBytes : Obligations.V1EncSubstitutesTheLowBytes :=
  fun rd rs1 s h =>
    ⟨_, exec_v1Enc (available_of_not_lacks h), writeZext_subLow_wrote s rd aesSbox (s.readReg rs1)⟩

/-- Settles O26: an available `saes.v1.dec` is the zero-extending write of the four bytes under InvAESSBox. -/
theorem v1DecSubstitutesTheLowBytes : Obligations.V1DecSubstitutesTheLowBytes :=
  fun rd rs1 s h =>
    ⟨_, exec_v1Dec (available_of_not_lacks h), writeZext_subLow_wrote s rd invAesSbox (s.readReg rs1)⟩

end Sys2Proof.Proofs
end

section
/-!
PROOFS. The statements of 42_variant2.md: the substitution takes bytes 0, 2 of one source and 1, 3 of the other, each in its own
position; the mix takes the column of bytes 0, 1 of one and 2, 3 of the other, with row 0 at either end.
-/

namespace Sys2Proof.Machine

/-- The one write of a Variant 2 substitution, in the bytes of the two sources (R120, R121). -/
theorem writeW32_subPair_wrote (s : State) (rd : Reg) (sb : Byte → Byte) (a b : Word) :
    Wrote32 s (s.writeW32 rd (subPair sb a b)).advancePc rd
      (cat4 (sb (byte b 3)) (sb (byte a 2)) (sb (byte b 1)) (sb (byte a 0))) :=
  writeW32_wrote s rd (subPair sb a b)

@[simp] theorem rev32_cat4 (b3 b2 b1 b0 : Byte) : rev32 (cat4 b3 b2 b1 b0) = cat4 b0 b1 b2 b3 := by
  simp only [rev32, byte_cat4_0, byte_cat4_1, byte_cat4_2, byte_cat4_3]

section
variable {row0 : MixRow0} (mix : Word32 → Word32) (a b : Word)

/-- With row 0 in byte 0 the mix is that of the column as it stands (R122, R123). -/
theorem mixPair_of_t0 (h : row0 = .t0) :
    mixPair row0 mix a b = mix (cat4 (byte b 3) (byte b 2) (byte a 1) (byte a 0)) := by
  rw [h, mixPair, joinPair]

/-- With row 0 in byte 3 the bytes reversed are the mix of the column reversed (R124). -/
theorem rev32_mixPair_of_t3 (h : row0 = .t3) :
    rev32 (mixPair row0 mix a b) = mix (cat4 (byte a 0) (byte a 1) (byte b 2) (byte b 3)) := by
  rw [h, mixPair, rev32_rev32, joinPair, rev32_cat4]

end

end Sys2Proof.Machine

namespace Sys2Proof.Proofs

open Sys2Proof.Machine

/-- Settles O28: an available `saes.v2.sub.enc` is the 32-bit write of the four bytes under AESSBox. -/
theorem v2SubEncSubstitutesThePair : Obligations.V2SubEncSubstitutesThePair :=
  fun rd rs1 rs2 s h =>
    ⟨_, exec_v2SubEnc (available_of_not_lacks h),
      writeW32_subPair_wrote s rd aesSbox (s.readReg rs1) (s.readReg rs2)⟩

/-- Settles O29: an available `saes.v2.sub.dec` is the 32-bit write of the four bytes under InvAESSBox. -/
theorem v2SubDecSubstitutesThePair : Obligations.V2SubDecSubstitutesThePair :=
  fun rd rs1 rs2 s h =>
    ⟨_, exec_v2SubDec (available_of_not_lacks h),
      writeW32_subPair_wrote s rd invAesSbox (s.readReg rs1) (s.readReg rs2)⟩

/-- Settles O30: an available `saes.v2.mix.enc` is the 32-bit write of `mixPair` with MixCol, which the row order determines. -/
theorem v2MixEncMixesTheColumn : Obligations.V2MixEncMixesTheColumn :=
  fun _ rs1 rs2 s h =>
    ⟨_, _, exec_v2MixEnc (available_of_not_lacks h), writeW32_wrote _ _ _,
      mixPair_of_t0 mixCol (s.readReg rs1) (s.readReg rs2), rev32_mixPair_of_t3 mixCol (s.readReg rs1) (s.readReg rs2)⟩

/-- Settles O31: an available `saes.v2.mix.dec` is the 32-bit write of `mixPair` with InvMixCol, which the row order
determines. -/
theorem v2MixDecMixesTheColumn : Obligations.V2MixDecMixesTheColumn :=
  fun _ rs1 rs2 s h =>
    ⟨_, _, exec_v2MixDec (available_of_not_lacks h), writeW32_wrote _ _ _,
      mixPair_of_t0 invMixCol (s.readReg rs1) (s.readReg rs2),
      rev32_mixPair_of_t3 invMixCol (s.readReg rs1) (s.readReg rs2)⟩

end Sys2Proof.Proofs
end

section
/-!
PROOFS. The statements of 43_variant3.md: byte `bs` of the first source, substituted or not, is spread over a column, the column
is rotated until its row 0 stands at byte `bs`, and the result is exclusive-ored into the low word of the second source.
-/

namespace Sys2Proof.Machine

open Sys2Proof.Statements

/-! ### The columns row by row -/

theorem byte_plainColumn (x : Byte) {i : Nat} (hi : i < 4) : byte (plainColumn x) i = if i = 0 then x else 0#8 := by
  match i, hi with
  | 0, _ | 1, _ | 2, _ | 3, _ => simp [plainColumn]

theorem byte_encColumn (x : Byte) {j : Nat} (hj : j < 4) :
    byte (encColumn x) j = gfmul x (encCoefficients.getD j 0#8) := by
  match j, hj with
  | 0, _ | 1, _ | 2, _ | 3, _ => simp [encColumn, encCoefficients, gfmul_1]

theorem byte_decColumn (x : Byte) {j : Nat} (hj : j < 4) :
    byte (decColumn x) j = gfmul x (decCoefficients.getD j 0#8) := by
  match j, hj with
  | 0, _ | 1, _ | 2, _ | 3, _ => simp [decColumn, decCoefficients]

/-! ### The shared body of the six -/

section
variable (sb : Byte → Byte) (col : Byte → Word32) (bs : ByteSel) (a b : Word)

/-- Byte `i` of the result is the row of the column that the rotation brings there, exclusive-ored into byte `i` of the second
source (R95, R130 to R135). -/
theorem byte_selectResult {i : Nat} (hi : i < 4) :
    byte (selectResult sb col bs a b) i =
      byte b i ^^^ byte (col (sb (byte a bs.toNat))) ((i + 4 - bs.toNat) % 4) := by
  rw [selectResult, byte_xor, byte_rotl32 _ bs.isLt hi, byte_low b hi, BitVec.xor_comm]

/-- The plain column puts the byte in position `bs` and leaves the other three (R130, R133). -/
theorem selectResult_plainColumn_inPlace :
    InPlace (sb (byte a bs.toNat)) bs.toNat b (selectResult sb plainColumn bs a b) := by
  intro j hj
  have hbs : bs.toNat < 4 := bs.isLt
  rw [byte_selectResult sb plainColumn bs a b hj, byte_plainColumn _ (Nat.mod_lt _ (by decide))]
  by_cases h : j = bs.toNat
  · have hrow : (j + 4 - bs.toNat) % 4 = 0 := by omega
    rw [if_pos hrow, if_pos h]
  · have hrow : (j + 4 - bs.toNat) % 4 ≠ 0 := by omega
    rw [if_neg hrow, if_neg h, BitVec.xor_zero]

variable {col} {coefficients : List Byte}

/-- A column of products with the coefficients contributes them from row `bs` on (R131, R132, R134, R135). -/
theorem selectResult_contribution
    (hcol : ∀ (x : Byte) {j : Nat}, j < 4 → byte (col x) j = gfmul x (coefficients.getD j 0#8)) :
    Contribution coefficients (sb (byte a bs.toNat)) bs.toNat b (selectResult sb col bs a b) := by
  intro j hj
  have hbs : bs.toNat < 4 := bs.isLt
  have hrow : ((bs.toNat + j) % 4 + 4 - bs.toNat) % 4 = j := by omega
  rw [byte_selectResult sb col bs a b (Nat.mod_lt _ (by decide)), hrow, hcol _ hj]

end

end Sys2Proof.Machine

namespace Sys2Proof.Proofs

open Sys2Proof.Machine

/-- Settles O33: an available `saes.v3.encs` is the 32-bit write of the byte under AESSBox in its own position. -/
theorem v3EncsSubstitutesInPlace : Obligations.V3EncsSubstitutesInPlace :=
  fun _ rs1 rs2 bs s h =>
    ⟨_, _, exec_v3Encs (available_of_not_lacks h), writeW32_wrote _ _ _,
      selectResult_plainColumn_inPlace aesSbox bs (s.readReg rs1) (s.readReg rs2)⟩

/-- Settles O34: an available `saes.v3.encm` is the 32-bit write of the byte's MixColumns contribution. -/
theorem v3EncmContributes : Obligations.V3EncmContributes :=
  fun _ rs1 rs2 bs s h =>
    ⟨_, _, exec_v3Encm (available_of_not_lacks h), writeW32_wrote _ _ _,
      selectResult_contribution id bs (s.readReg rs1) (s.readReg rs2) byte_encColumn⟩

/-- Settles O35: an available `saes.v3.encsm` is the 32-bit write of the MixColumns contribution of the byte under AESSBox. -/
theorem v3EncsmSubstitutesAndContributes : Obligations.V3EncsmSubstitutesAndContributes :=
  fun _ rs1 rs2 bs s h =>
    ⟨_, _, exec_v3Encsm (available_of_not_lacks h), writeW32_wrote _ _ _,
      selectResult_contribution aesSbox bs (s.readReg rs1) (s.readReg rs2) byte_encColumn⟩

/-- Settles O36: an available `saes.v3.decs` is the 32-bit write of the byte under InvAESSBox in its own position. -/
theorem v3DecsSubstitutesInPlace : Obligations.V3DecsSubstitutesInPlace :=
  fun _ rs1 rs2 bs s h =>
    ⟨_, _, exec_v3Decs (available_of_not_lacks h), writeW32_wrote _ _ _,
      selectResult_plainColumn_inPlace invAesSbox bs (s.readReg rs1) (s.readReg rs2)⟩

/-- Settles O37: an available `saes.v3.decm` is the 32-bit write of the byte's InvMixColumns contribution. -/
theorem v3DecmContributes : Obligations.V3DecmContributes :=
  fun _ rs1 rs2 bs s h =>
    ⟨_, _, exec_v3Decm (available_of_not_lacks h), writeW32_wrote _ _ _,
      selectResult_contribution id bs (s.readReg rs1) (s.readReg rs2) byte_decColumn⟩

/-- Settles O38: an available `saes.v3.decsm` is the 32-bit write of the InvMixColumns contribution of the byte under
InvAESSBox. -/
theorem v3DecsmSubstitutesAndContributes : Obligations.V3DecsmSubstitutesAndContributes :=
  fun _ rs1 rs2 bs s h =>
    ⟨_, _, exec_v3Decsm (available_of_not_lacks h), writeW32_wrote _ _ _,
      selectResult_contribution invAesSbox bs (s.readReg rs1) (s.readReg rs2) byte_decColumn⟩

end Sys2Proof.Proofs
end

section
/-!
PROOFS. The statements of 44_variant4.md: each instruction writes all 64 bits of its destination on `XLEN = 64`; the substitution
goes byte by byte, the inverse mix word by word, and a round half is two columns of the round state.
-/

namespace Sys2Proof.Machine

open Sys2Proof.Statements

/-- The hardware has an RV64-only mnemonic on `XLEN = 64` alone, where a register holds every 64-bit value (R20, R76). -/
theorem writeReg_wrote_of_rv64Only {s : State} {m : Mnemonic} (h : ¬ Lacks s.cfg m) (hm : m.rv64Only = true)
    (rd : Reg) (v : Word) : Wrote s (s.writeReg rd v).advancePc rd v :=
  writeReg_wrote s rd (by rw [available_rv64 (available_of_not_lacks h) hm, fit_rv64])

/-! ### The unary instructions -/

theorem byte_subEight (v : Word) {k : Nat} (hk : k < 8) : byte (subEight v) k = aesSbox (byte v k) := by
  by_cases hlow : k < 4
  · rw [← byte_low _ hlow, subEight, word_cat2w_0, byte_wordOf _ hlow]
  · obtain ⟨j, rfl⟩ := Nat.exists_eq_add_of_le (not_lt.mp hlow)
    have hj : j < 4 := by omega
    calc byte (subEight v) (4 + j)
        = byte (word (subEight v) 1) j := (byte_word _ 1 hj).symm
      _ = aesSbox (byte v (4 + j)) := by rw [subEight, word_cat2w_1, byte_wordOf _ hj, Nat.add_comm]

theorem word_imixWords (v : Word) {c : Nat} (hc : c < 2) : word (imixWords v) c = invMixCol (word v c) := by
  match c, hc with
  | 0, _ => exact word_cat2w_0 _ _
  | 1, _ => exact word_cat2w_1 _ _

/-! ### The columns of the round state (R161) -/

section
variable (a b : Word) {c : Nat} (hc : c < 4)
include hc

theorem word_shiftRows_subBytes :
    word (shiftRows (subBytes aesSbox (stateOf a b))) c = encryptColumn a b c := by
  refine (word_blockOf _ hc).trans (wordOf_congr fun r hr => ?_)
  rw [byte_subBytes _ _ (shiftIndex_lt _), byte_stateOf _ _ (shiftIndex_lt _), Nat.add_comm, shiftIndex_row_col hr]

theorem word_invShiftRows_subBytes :
    word (invShiftRows (subBytes invAesSbox (stateOf a b))) c = decryptColumn a b c := by
  refine (word_blockOf _ hc).trans (wordOf_congr fun r hr => ?_)
  rw [byte_subBytes _ _ (invShiftIndex_lt _), byte_stateOf _ _ (invShiftIndex_lt _), Nat.add_comm,
    invShiftIndex_row_col hr]

theorem word_v4Round_encs : word (v4Round a b false false) c = encryptColumn a b c :=
  word_shiftRows_subBytes a b hc

theorem word_v4Round_encsm : word (v4Round a b false true) c = mixCol (encryptColumn a b c) :=
  (word_mixColumns _ hc).trans (congrArg mixCol (word_shiftRows_subBytes a b hc))

theorem word_v4Round_decs : word (v4Round a b true false) c = decryptColumn a b c :=
  word_invShiftRows_subBytes a b hc

theorem word_v4Round_decsm : word (v4Round a b true true) c = invMixCol (decryptColumn a b c) :=
  (word_invMixColumns _ hc).trans (congrArg invMixCol (word_invShiftRows_subBytes a b hc))

end

/-! ### The halves of a state, by its columns -/

section
variable {t : Block} {column : Nat → Word32} (ht : ∀ {c : Nat}, c < 4 → word t c = column c)
include ht

theorem word_lowHalf_of_columns : ∀ c < 2, word (lowHalf t) c = column c :=
  fun _ hc => (word_lowHalf t hc).trans (ht (by omega))

theorem word_highHalf_of_columns : ∀ c < 2, word (highHalf t) c = column (c + 2) :=
  fun _ hc => (word_highHalf t hc).trans (ht (by omega))

end

end Sys2Proof.Machine

namespace Sys2Proof.Proofs

open Sys2Proof.Machine

/-- Settles O41: an available `saes.v4.sub` is the register write of the eight bytes under AESSBox. -/
theorem v4SubSubstitutesAllBytes : Obligations.V4SubSubstitutesAllBytes :=
  fun _ rs1 s h =>
    ⟨_, _, exec_v4Sub (available_of_not_lacks h), writeReg_wrote_of_rv64Only h rfl _ _,
      fun _ hk => byte_subEight (s.readReg rs1) hk⟩

/-- Settles O42: an available `saes.v4.imix` is the register write of the two words under InvMixCol. -/
theorem v4ImixMixesBothColumns : Obligations.V4ImixMixesBothColumns :=
  fun _ rs1 s h =>
    ⟨_, _, exec_v4Imix (available_of_not_lacks h), writeReg_wrote_of_rv64Only h rfl _ _,
      fun _ hc => word_imixWords (s.readReg rs1) hc⟩

/-- Settles O43: each of the two is the register write of a half of the encryption round, whose columns are mixed. -/
theorem v4EncsmIsTheEncryptionRound : Obligations.V4EncsmIsTheEncryptionRound :=
  fun _ rs1 rs2 s =>
    ⟨fun h => ⟨_, _, exec_v4EncsmLo (available_of_not_lacks h), writeReg_wrote_of_rv64Only h rfl _ _,
      word_lowHalf_of_columns (word_v4Round_encsm (s.readReg rs1) (s.readReg rs2))⟩,
    fun h => ⟨_, _, exec_v4EncsmHi (available_of_not_lacks h), writeReg_wrote_of_rv64Only h rfl _ _,
      word_highHalf_of_columns (word_v4Round_encsm (s.readReg rs1) (s.readReg rs2))⟩⟩

/-- Settles O44: each of the two is the register write of a half of the last encryption round, whose columns are not mixed. -/
theorem v4EncsIsTheLastEncryptionRound : Obligations.V4EncsIsTheLastEncryptionRound :=
  fun _ rs1 rs2 s =>
    ⟨fun h => ⟨_, _, exec_v4EncsLo (available_of_not_lacks h), writeReg_wrote_of_rv64Only h rfl _ _,
      word_lowHalf_of_columns (word_v4Round_encs (s.readReg rs1) (s.readReg rs2))⟩,
    fun h => ⟨_, _, exec_v4EncsHi (available_of_not_lacks h), writeReg_wrote_of_rv64Only h rfl _ _,
      word_highHalf_of_columns (word_v4Round_encs (s.readReg rs1) (s.readReg rs2))⟩⟩

/-- Settles O45: each of the two is the register write of a half of the decryption round, whose columns are inversely mixed. -/
theorem v4DecsmIsTheDecryptionRound : Obligations.V4DecsmIsTheDecryptionRound :=
  fun _ rs1 rs2 s =>
    ⟨fun h => ⟨_, _, exec_v4DecsmLo (available_of_not_lacks h), writeReg_wrote_of_rv64Only h rfl _ _,
      word_lowHalf_of_columns (word_v4Round_decsm (s.readReg rs1) (s.readReg rs2))⟩,
    fun h => ⟨_, _, exec_v4DecsmHi (available_of_not_lacks h), writeReg_wrote_of_rv64Only h rfl _ _,
      word_highHalf_of_columns (word_v4Round_decsm (s.readReg rs1) (s.readReg rs2))⟩⟩

/-- Settles O46: each of the two is the register write of a half of the last decryption round, whose columns are not mixed. -/
theorem v4DecsIsTheLastDecryptionRound : Obligations.V4DecsIsTheLastDecryptionRound :=
  fun _ rs1 rs2 s =>
    ⟨fun h => ⟨_, _, exec_v4DecsLo (available_of_not_lacks h), writeReg_wrote_of_rv64Only h rfl _ _,
      word_lowHalf_of_columns (word_v4Round_decs (s.readReg rs1) (s.readReg rs2))⟩,
    fun h => ⟨_, _, exec_v4DecsHi (available_of_not_lacks h), writeReg_wrote_of_rv64Only h rfl _ _,
      word_highHalf_of_columns (word_v4Round_decs (s.readReg rs1) (s.readReg rs2))⟩⟩

end Sys2Proof.Proofs
end

section
/-!
PROOFS. The statements of 60_exceptions.md: what a step finds at `pc`, and the causes of IllegalInstruction.
-/

namespace Sys2Proof.Machine

open Sys2Proof.Statements

/-! ### What stands at an address -/

/-- Nothing is fetched at an address that is no `PC_START + 4k` of the text (R42). -/
theorem fetchWord_eq_none {s : State} {a : Nat} (h : ∀ k < s.program.length, a ≠ s.startValue.toNat + 4 * k) :
    s.fetchWord a = none := by
  refine Option.eq_none_iff_forall_ne_some.mpr fun w hw => ?_
  obtain ⟨k, ha, hk⟩ := fetchWord_some hw
  exact h k (List.getElem?_eq_some_iff.mp hk).1 ha

/-- A step where no word stands and the run is not over finds the hart stuck (R42, R183). -/
theorem step_stuck {s : State} (ho : s.runOver = false) (hf : s.fetchWord s.pcValue.toNat = none) :
    step s = .fault (.stuck s.pcValue) := by
  unfold step stepWith
  rw [ho, hf]; rfl

/-! ### The causes of IllegalInstruction -/

/-- The causes of R182 for a word `w` under the parameters `c`: of the major opcode, it fits no row of the opcode map, or it
fits the row of a mnemonic the hardware lacks. -/
def IllegalCause (c : Config) (w : Word32) : Prop :=
  opcodeField w = majorOpcode ∧
    ((∀ row ∈ opcodeMap, w &&& row.mask ≠ row.matchBits) ∨
      ∃ row ∈ opcodeMap, w &&& row.mask = row.matchBits ∧ Lacks c row.mnemonic)

section
variable {s : State} {w : Word32} (hf : Fetches s w)
include hf

theorem step_of_illegalCause (h : IllegalCause s.cfg w) : step s = .fault (.illegalInstruction s.pcValue w) := by
  obtain ⟨ho, hnone | ⟨row, hrow, hfit, hl⟩⟩ := h
  · obtain ⟨e, hd⟩ := decodeWord_error_of_encode_ne (encode_ne_of_fits_none hnone)
    exact step_of_decode_error hf hd ho
  · obtain ⟨i, hd, hm⟩ := decodeWord_of_fits hrow hfit
    exact Proofs.rv64OnlyOrUnimplementedWordsRaise s w i hf hd (hm ▸ hl)

/-- A word that fits the row of a mnemonic the hardware has completes (R182, R184). -/
theorem step_completes_of_fits {row : OpcodeRow} (hrow : row ∈ opcodeMap) (hfit : w &&& row.mask = row.matchBits)
    (hl : ¬ Lacks s.cfg row.mnemonic) : ∃ t, step s = .next t := by
  obtain ⟨i, hd, hm⟩ := decodeWord_of_fits hrow hfit
  obtain ⟨t, ht, -⟩ := exec_completes (i := i) (hm ▸ hl)
  exact ⟨t, (Proofs.stepRunsTheDecodedInstruction s w i hf hd).trans ht⟩

theorem illegalCause_of_step {a : Word} {v : Word32} (h : step s = .fault (.illegalInstruction a v)) :
    IllegalCause s.cfg w := by
  refine ⟨?_, or_iff_not_imp_left.mpr fun hsome => ?_⟩
  · by_contra ho
    rw [step_of_foreign hf ho] at h
    cases h
  · push Not at hsome
    obtain ⟨row, hrow, hfit⟩ := hsome
    refine ⟨row, hrow, hfit, ?_⟩
    by_contra hl
    obtain ⟨t, ht⟩ := step_completes_of_fits hf hrow hfit hl
    rw [ht] at h
    cases h

end

end Sys2Proof.Machine

namespace Sys2Proof.Proofs

open Sys2Proof.Machine

/-- Settles O9: each cause raises the fault with the record (`pc`, word); without one the word is foreign, which is refused, or
that of an instruction the hardware has, which completes. -/
theorem illegalInstructionExactlyForTheListedCauses : Obligations.IllegalInstructionExactlyForTheListedCauses := by
  intro s w hf a v
  change _ ↔ (a = s.pcValue ∧ v = w) ∧ IllegalCause s.cfg w
  constructor
  · intro h
    have hc := illegalCause_of_step hf h
    rw [step_of_illegalCause hf hc] at h
    cases h
    exact ⟨⟨rfl, rfl⟩, hc⟩
  · rintro ⟨⟨rfl, rfl⟩, hc⟩
    exact step_of_illegalCause hf hc

/-- Settles O20: at `PC_START + 4k` the `k`-th word stands, and the run is over only at the end with the carry; at any other
address nothing stands, and the run is over exactly at the end. -/
theorem stepFetchesByAddress : Obligations.StepFetchesByAddress := by
  refine fun s => ⟨fun k hk hpc => ?_, fun hne => ?_⟩
  · have hf : s.fetchWord s.pcValue.toNat = some s.program[k] := by
      rw [hpc, fetchWord_at, List.getElem?_eq_getElem hk]
    have hover := runOver_of_fetch hf
    exact ⟨fun hend => step_runOver (by simp [hover, hend]), fun hend => ⟨by simpa [hover] using hend, hf⟩⟩
  · have hf := fetchWord_eq_none hne
    have hover := runOver_of_no_fetch hf
    exact ⟨fun hend => step_runOver (by simp [hover, hend]), fun hend => step_stuck (by simp [hover, hend]) hf⟩

end Sys2Proof.Proofs
end

section
/-!
PROOFS. The statements of 10_state.md and 30_encoding.md section 3 about one step: under any decoder it runs what it decodes; it
advances `pc`, on which no result depends; it changes one register, whose upper half is as R24 says.
-/

namespace Sys2Proof.Machine

open Sys2Proof.Statements

/-! ### `pc` and the fetch -/

/-- Only a step that fetches a word can raise IllegalInstruction: at the end of the run and where the hart is stuck there is
another fault (R183). -/
theorem fetches_of_step_illegal {s : State} {a : Word} {v : Word32} (h : step s = .fault (.illegalInstruction a v)) :
    ∃ w, Fetches s w := by
  cases ho : s.runOver with
  | true =>
    rw [step_runOver ho] at h
    cases h
  | false =>
    cases hf : s.fetchWord s.pcValue.toNat with
    | none =>
      rw [step_stuck ho hf] at h
      cases h
    | some w => exact ⟨w, ho, hf⟩

/-! ### The same write at another `pc` -/

section
variable (s : State) (p : Word) (r : Reg)

theorem writeReg_withPc (v : Word) : ({ s with pc := p } : State).writeReg r v = { s.writeReg r v with pc := p } := by
  unfold State.writeReg; split <;> rfl

/-- The free value of `W32` is drawn by the count of draws alone (log entry 4), so `pc` does not enter. -/
theorem writeW32_withPc (v : Word32) : ({ s with pc := p } : State).writeW32 r v = { s.writeW32 r v with pc := p } := by
  unfold State.writeW32 State.writeZext
  simp only [writeReg_withPc]
  split <;> rfl

end

theorem SameWrite.regs_eq {s u u' : State} {p : Word} {rd : Reg} (h : SameWrite s { s with pc := p } rd u u') :
    u'.regs = u.regs := by
  cases h with
  | reg hv => rw [← hv, writeReg_withPc]
  | w32 hv => rw [← hv, writeW32_withPc]

/-- An instruction that completes does so at any `pc`, and leaves the same registers (R26). -/
theorem exec_withPc {i : Instr} {s t : State} (p : Word) (h : exec i s = .next t) :
    ∃ u, exec i { s with pc := p } = .next u ∧ u.regs = t.regs ∧
      u.pcValue = ({ s with pc := p } : State).nextPc := by
  obtain ⟨u, hu, he⟩ := exec_available (s := { s with pc := p }) (exec_next h).1
  have hagree : SourcesAgree i s { s with pc := p } := ⟨rfl, fun _ _ => rfl, fun _ _ _ _ => rfl⟩
  obtain ⟨v, v', hv, rfl, hv'⟩ := exec_next_sameWrite hagree h he
  refine ⟨_, he, ?_, hu.onlyReg.pc⟩
  rw [hv', advancePc_regs, advancePc_regs, hv.regs_eq]

/-! ### The write of each mnemonic (R24) -/

/-- The ten mnemonics of Variants 2 and 3, whose result is written by `W32` (R24). -/
def w32Mnemonics : List Mnemonic :=
  [.v2SubEnc, .v2SubDec, .v2MixEnc, .v2MixDec, .v3Encs, .v3Encm, .v3Encsm, .v3Decs, .v3Decm, .v3Decsm]

theorem rv64Only_eq_false_of_mem_w32 : ∀ m ∈ w32Mnemonics, m.rv64Only = false := by decide

theorem not_mem_w32_of_rv64Only {m : Mnemonic} (h : m.rv64Only = true) : m ∉ w32Mnemonics := fun hm => by
  rw [rv64Only_eq_false_of_mem_w32 m hm] at h
  cases h

/-- `u` is `s` after one write to `rd` of the kind R24 gives the mnemonic `m`: zero-extended for Variant 1, by `W32` for
Variants 2 and 3, of a whole register for Variant 4 (compare `OneWrite`, which forgets the mnemonic). -/
inductive WriteOf (m : Mnemonic) (s : State) (rd : Reg) : State → Prop where
  | zext (v : Word32) (h : m ∈ [.v1Enc, .v1Dec]) : WriteOf m s rd (s.writeZext rd v)
  | w32 (v : Word32) (h : m ∈ w32Mnemonics) : WriteOf m s rd (s.writeW32 rd v)
  | reg (v : Word) (h : m.rv64Only = true) : WriteOf m s rd (s.writeReg rd v)

theorem exec_eq_perform_writeOf (i : Instr) :
    ∃ body : State → State, (∀ s, exec i s = perform i s body) ∧ ∀ s, WriteOf i.mnemonic s i.rd (body s) := by
  cases i with
  | v1Enc | v1Dec => exact ⟨_, fun _ => rfl, fun _ => .zext _ (by simp [Instr.mnemonic])⟩
  | v2SubEnc | v2SubDec | v2MixEnc | v2MixDec | v3Encs | v3Encm | v3Encsm | v3Decs | v3Decm | v3Decsm =>
    exact ⟨_, fun _ => rfl, fun _ => .w32 _ (by simp [Instr.mnemonic, w32Mnemonics])⟩
  | v4Sub | v4Imix | v4EncsmLo | v4EncsmHi | v4EncsLo | v4EncsHi | v4DecsmLo | v4DecsmHi | v4DecsLo | v4DecsHi =>
    exact ⟨_, fun _ => rfl, fun _ => .reg _ rfl⟩

theorem exec_next_writeOf {i : Instr} {s t : State} (h : exec i s = .next t) :
    ∃ u, WriteOf i.mnemonic s i.rd u ∧ t = u.advancePc := by
  obtain ⟨body, he, hb⟩ := exec_eq_perform_writeOf i
  rw [he] at h
  exact ⟨body s, hb s, (perform_next h).2⟩

/-- A free value is drawn exactly for the mnemonics written by `W32`, under `HI32 = any` on `XLEN = 64` (log entry 4). -/
theorem WriteOf.draws {m : Mnemonic} {s u : State} {rd : Reg} (h : WriteOf m s rd u) :
    u.draws = if Config.drawsHigh s.cfg ∧ m ∈ w32Mnemonics then s.draws + 1 else s.draws := by
  cases h with
  | zext v hm =>
    have hnot : ∀ m ∈ [Mnemonic.v1Enc, .v1Dec], m ∉ w32Mnemonics := by decide
    simp [State.writeZext, hnot m hm]
  | w32 v hm => simpa [hm] using (writeW32_wrote s rd v).draws
  | reg v hm => simp [not_mem_w32_of_rv64Only hm]

/-! ### The destination of a 32-bit result (R24) -/

section
variable {s : State} {rd : Reg} (v : Word32)

theorem writeW32_of_rv32 (hx : s.cfg.xlen = .rv32) : s.writeW32 rd v = s.writeZext rd v := by
  simp [State.writeW32, hx]

theorem writeW32_of_zero (hx : s.cfg.xlen = .rv64) (hh : s.cfg.hi32 = .zero) : s.writeW32 rd v = s.writeZext rd v := by
  simp [State.writeW32, hx, hh]

theorem writeW32_of_sext (hx : s.cfg.xlen = .rv64) (hh : s.cfg.hi32 = .sext) :
    s.writeW32 rd v = s.writeReg rd (v.signExtend 64) := by
  simp [State.writeW32, hx, hh]

theorem writeW32_of_any (hx : s.cfg.xlen = .rv64) (hh : s.cfg.hi32 = .any) :
    s.writeW32 rd v = (s.writeReg rd (cat2w (Config.freeHi32 s.draws) v)).countDraw := by
  simp [State.writeW32, hx, hh]

variable (hrd : rd ≠ 0#5)
include hrd

theorem readReg_writeZext_same : (s.writeZext rd v).readReg rd = v.setWidth 64 := by
  rw [State.writeZext, readReg_writeReg_same, if_neg hrd, fit_setWidth]

theorem readReg_writeReg_rv64 (hx : s.cfg.xlen = .rv64) (w : Word) : (s.writeReg rd w).readReg rd = w := by
  rw [readReg_writeReg_same, if_neg hrd, hx, fit_rv64]

end

end Sys2Proof.Machine

namespace Sys2Proof.Proofs

open Sys2Proof.Machine Sys2Proof.Statements

/-- Settles O7: a completed `exec` has no record to replace, and the fault of an instruction the hardware lacks gets the word
fetched for its record. -/
theorem anyDecoderRunsItsInstruction : Obligations.AnyDecoderRunsItsInstruction := by
  intro enc s w i hf hd
  have hstep : stepWith enc s = recordWord w (exec i s) := by rw [stepWith_fetches enc hf, hd]
  refine ⟨fun h => ?_, fun h => ?_⟩
  · obtain ⟨t, ht, -⟩ := exec_completes h
    rw [hstep, ht]; rfl
  · rw [hstep, exec_unavailable ((lacks_iff _ _).mp h)]; rfl

/-- Settles O11: a step that goes on is an instruction, which advances `pc` and writes what it writes at any other `pc`; one
that faults has fetched a word, and records its address. -/
theorem pcAdvancesByFour : Obligations.PcAdvancesByFour := by
  refine ⟨fun s t h => ?_, fun i s t p h => ?_, fun s a w h => ?_⟩
  · obtain ⟨_, _, -, -, he⟩ := step_next h
    obtain ⟨-, u, hu, rfl⟩ := exec_next he
    rw [hu.onlyReg.pc, nextPc_toNat]
  · obtain ⟨u, hu, hregs, hpc⟩ := exec_withPc p h
    exact ⟨u, hu, hregs, by rw [hpc, nextPc_toNat]⟩
  · obtain ⟨w', hf⟩ := fetches_of_step_illegal h
    obtain ⟨⟨ha, -⟩, -⟩ := (illegalInstructionExactlyForTheListedCauses s w' hf a w).mp h
    exact ha

/-- Settles O17: Variant 1 writes its result zero-extended, and the other two write theirs by `W32`, which is one register write
for each value of `HI32`. -/
theorem upperHalfOfA32BitResult : Obligations.UpperHalfOfA32BitResult := by
  intro i s hl hm hrd
  obtain ⟨t, ht, -⟩ := exec_completes hl
  obtain ⟨u, hu, rfl⟩ := exec_next_writeOf ht
  refine ⟨_, ht, ?_⟩
  simp only [advancePc_readReg, advancePc_draws, inReg]
  cases hu with
  | zext v h =>
    have hval := readReg_writeZext_same (s := s) v hrd
    exact ⟨fun _ => by simp [hval], fun h1 h2 => by simp [h1, h2] at h⟩
  | w32 v h =>
    refine ⟨fun h1 => ?_, fun _ _ => ⟨fun hx => ?_, fun hx hh => ?_, fun hx hh => ?_, fun hx hh => ?_⟩⟩
    · rcases h1 with h1 | h1 <;> simp [h1, w32Mnemonics] at h
    · rw [writeW32_of_rv32 v hx, readReg_writeZext_same v hrd, word_setWidth_0]
    · rw [writeW32_of_zero v hx hh, readReg_writeZext_same v hrd, word_setWidth_0]
    · rw [writeW32_of_sext v hx hh, readReg_writeReg_rv64 hrd hx, word_signExtend_0]
    · rw [writeW32_of_any v hx hh, countDraw_readReg, readReg_writeReg_rv64 hrd hx, word_cat2w_0]
      exact ⟨rfl, by simp⟩
  | reg v h =>
    rw [hm] at h
    cases h

/-- Settles O18: the step is the decoded instruction's one write, which `OnlyReg` bounds and the kind of which decides the
draw. -/
theorem stepChangesOnlyTheDestination : Obligations.StepChangesOnlyTheDestination := by
  intro s t h
  obtain ⟨w, i, hf, hd, he⟩ := step_next h
  obtain ⟨-, u, hu, ht⟩ := exec_next he
  obtain ⟨u', hu', ht'⟩ := exec_next_writeOf he
  refine ⟨w, i, hf, hd, ht ▸ hu.onlyReg, ?_⟩
  rw [ht', advancePc_draws]
  exact hu'.draws

end Sys2Proof.Proofs
end

section
/-!
PROOFS. The statements of 70_reset_and_hazards.md: a launch is refused or starts a run in a state of the invariant, and a run goes
through the words of its text one by one to the end, where it is over.
-/

namespace Sys2Proof.Machine

/-! ### The launch (R211) -/

/-- A launch that is not admissible is refused, under one of three names. -/
theorem launch_refused {l : Launch} (h : l.wf = false) : ∃ r, launch l = .refused r := by
  unfold launch
  split
  · exact ⟨_, rfl⟩
  · split
    · exact ⟨_, rfl⟩
    · split
      · exact ⟨_, rfl⟩
      · next ha hf hc => simp_all [Launch.wf]

theorem launch_of_wf {l : Launch} (h : l.wf = true) : launch l = .next (launchState l) := by
  unfold Launch.wf at h
  simp only [Bool.and_eq_true] at h
  obtain ⟨⟨hc, ha⟩, hf⟩ := h
  simp [launch, hc, ha, hf]

/-- The conditions of R211 with that of R7 on the parameters. -/
theorem launch_wf_iff (l : Launch) : l.wf = true ↔ l.cfg.wf = true ∧ l.pcStart.toNat % 4 = 0 ∧
    l.pcStart.toNat + 4 * l.program.length ≤ 2 ^ l.cfg.xlen.bits := by
  simp [Launch.wf, Launch.aligned, Launch.textFits, and_assoc]

@[simp] theorem startReg_zero (l : Launch) : startReg l 0#5 = 0#64 := rfl

@[simp] theorem fit_startReg (l : Launch) (r : Reg) : fit l.cfg.xlen (startReg l r) = startReg l r := by
  unfold startReg; split <;> simp

theorem launchState_slot (l : Launch) (r : Reg) : (launchState l).regs[r.toNat] = startReg l r := by
  simp [launchState]

/-- Every register of the initial state holds its start value (R211). -/
theorem launchState_readReg (l : Launch) (r : Reg) : (launchState l).readReg r = startReg l r := by
  unfold State.readReg
  split
  · next h => rw [h, startReg_zero]
  · rw [launchState_slot]; exact fit_startReg l r

/-- The first of `X_START`'s entries for a register gives its start value (R211). -/
theorem startReg_of_lookup {l : Launch} {r : Reg} {v : Word} (hr : r ≠ 0#5) (h : l.xStart.lookup r = some v) :
    startReg l r = fit l.cfg.xlen v := by
  simp [startReg, hr, h]

/-- The initial state of an admissible launch satisfies the invariant: `PC_START` loses no alignment and gains no value by its
width, and `pc` stands at the first word. -/
theorem launchState_inv {l : Launch} (h : l.wf = true) : (launchState l).Inv := by
  obtain ⟨hcfg, haligned, hfits⟩ := (launch_wf_iff l).mp h
  have hstart : (launchState l).pcStart.toNat = l.pcStart.toNat % 2 ^ l.cfg.xlen.bits := fit_toNat _ _
  exact {
    config  := hcfg
    slot0   := launchState_slot l 0#5
    widths  := fun r => by rw [launchState_slot]; exact fit_startReg l r
    pcWidth := fit_fit _ _
    start   := fit_fit _ _
    aligned := by
      have hdvd : 4 ∣ 2 ^ l.cfg.xlen.bits := by cases l.cfg.xlen <;> decide
      rw [hstart, Nat.mod_mod_of_dvd _ hdvd, haligned]
    fits    := by
      have hle := Nat.mod_le l.pcStart.toNat (2 ^ l.cfg.xlen.bits)
      change (launchState l).pcStart.toNat + 4 * l.program.length ≤ 2 ^ l.cfg.xlen.bits
      omega
    inText  := ⟨0, Nat.zero_le _, congrArg BitVec.toNat (fit_fit _ _).symm⟩ }

/-! ### The place of `pc` in the text -/

/-- `pc`, counted past `2^XLEN` where it has wrapped, stands at word `k` of the text, or at its end when `k` is its length. -/
structure State.At (s : State) (k : Nat) : Prop where
  le  : k ≤ s.program.length
  sum : s.pcStart.toNat + 4 * k = s.pcValue.toNat + if s.wrapped then 2 ^ s.cfg.xlen.bits else 0

theorem State.Inv.exists_at {s : State} (h : s.Inv) : ∃ k, s.At k := by
  obtain ⟨k, hk, hsum⟩ := h.inText
  exact ⟨k, hk, hsum⟩

theorem State.At.pcValue_eq {s : State} {k : Nat} (h : s.At k) :
    s.pcValue = fit s.cfg.xlen (s.pcStart + BitVec.ofNat 64 (4 * k)) := by
  have hdvd : 2 ^ s.cfg.xlen.bits ∣ 2 ^ 64 := by cases s.cfg.xlen <;> decide
  have hlt : s.pcValue.toNat < 2 ^ s.cfg.xlen.bits := by
    rw [State.pcValue, fit_toNat]; exact Nat.mod_lt _ (Nat.two_pow_pos _)
  apply BitVec.eq_of_toNat_eq
  rw [fit_toNat, BitVec.toNat_add, BitVec.toNat_ofNat, Nat.add_mod_mod, Nat.mod_mod_of_dvd _ hdvd, h.sum]
  split
  · rw [Nat.add_mod_right, Nat.mod_eq_of_lt hlt]
  · rw [Nat.add_zero, Nat.mod_eq_of_lt hlt]

section
variable {s t : State} {k : Nat} (hs : s.Inv) (hk : s.At k)
include hs hk

/-- Before the end of the text `pc` has not wrapped, since the text does not cross `2^XLEN` (R211). -/
theorem State.At.wrapped_eq_false (hlt : k < s.program.length) : s.wrapped = false := by
  have hsum := hk.sum
  have hfits := hs.fits
  by_contra hw
  rw [if_pos (by simpa using hw)] at hsum
  omega

/-- The `k`-th word is what a step at its place fetches (R42). -/
theorem State.At.fetches {w : Word32} (hw : s.program[k]? = some w) : Fetches s w := by
  have hwrap := hk.wrapped_eq_false hs (List.getElem?_eq_some_iff.mp hw).1
  have hpc : s.pcValue.toNat = s.startValue.toNat + 4 * k := by
    rw [hs.startValue_eq, hk.sum, hwrap]; rfl
  have hf : s.fetchWord s.pcValue.toNat = some w := by rw [hpc, fetchWord_at, hw]
  exact ⟨by rw [runOver_of_fetch hf, hwrap, Bool.and_false], hf⟩

/-- At the end of the text the run is over: a word stands there only where the text fills the address space, and there `pc` has
wrapped (R212, log entry 10). -/
theorem State.At.runOver (hend : k = s.program.length) : s.runOver = true := by
  have hpc : s.pcValue = s.endPc := by rw [hk.pcValue_eq, hend, State.endPc, hs.startValue_eq]
  cases hf : s.fetchWord s.pcValue.toNat with
  | none => rw [runOver_of_no_fetch hf]; exact decide_eq_true hpc
  | some w =>
    obtain ⟨j, hj, hw⟩ := fetchWord_some hf
    have hlt : j < s.program.length := (List.getElem?_eq_some_iff.mp hw).1
    have hsum := hk.sum
    rw [hs.startValue_eq] at hj
    have hwrap : s.wrapped = true := by
      by_contra hw
      rw [if_neg hw] at hsum
      omega
    rw [runOver_of_fetch hf, hwrap, Bool.and_true]; exact decide_eq_true hpc

/-- A step that goes on stood at a word of the text, and leaves `pc` at the place after it (R26). -/
theorem State.At.step (h : step s = .next t) : t.At (k + 1) ∧ t.cfg = s.cfg ∧ t.program = s.program ∧ t.pcStart = s.pcStart := by
  have hlt : k < s.program.length := by
    refine lt_of_le_of_ne hk.le fun hend => ?_
    rw [step_runOver (hk.runOver hs hend)] at h
    cases h
  obtain ⟨_, i, -, -, he⟩ := step_next h
  obtain ⟨-, u, hu, ht⟩ := exec_next he
  have ho : OnlyReg s t i.rd := ht ▸ hu.onlyReg
  have hsum := advancePc_sum s
  rw [advancePc_pcValue, advancePc_wrapped] at hsum
  refine ⟨⟨by rw [ho.program]; exact hlt, ?_⟩, ho.cfg, ho.program, ho.start⟩
  have hplace := hk.sum
  rw [hk.wrapped_eq_false hs hlt, if_neg Bool.false_ne_true] at hplace
  rw [ho.start, ho.pc, ho.wrapped, ho.cfg, hsum]
  omega

end

/-! ### Runs -/

theorem runSteps_succ {k : Nat} {s t : State} (h : runSteps (k + 1) s = .next t) :
    ∃ u, step s = .next u ∧ runSteps k u = .next t := by
  unfold runSteps at h
  split at h
  · next u hu => exact ⟨u, hu, h⟩
  · next hne => exact absurd h (hne t)

/-- `k` steps that all go on keep the invariant, the parameters and the text, and move `pc` on by `k` words (R212). -/
theorem runSteps_at {k : Nat} : ∀ {s t : State} {j : Nat}, s.Inv → s.At j → runSteps k s = .next t →
    t.Inv ∧ t.At (j + k) ∧ t.cfg = s.cfg ∧ t.program = s.program ∧ t.pcStart = s.pcStart := by
  induction k with
  | zero =>
    intro s t j hs hj h
    cases h
    exact ⟨hs, hj, rfl, rfl, rfl⟩
  | succ k ih =>
    intro s t j hs hj h
    obtain ⟨u, hu, hrun⟩ := runSteps_succ h
    obtain ⟨hju, hcu, hpu, hsu⟩ := hj.step hs hu
    obtain ⟨ht, hjt, hct, hpt, hst⟩ := ih (Proofs.stepKeepsTheInvariant s u hs hu) hju hrun
    refine ⟨ht, ?_, hct.trans hcu, hpt.trans hpu, hst.trans hsu⟩
    rwa [Nat.add_assoc, Nat.add_comm 1] at hjt

/-- A step that fetches a word goes on, is refused or raises IllegalInstruction: the hart is not stuck (R42, R183). -/
theorem step_ne_stuck_of_fetches {s : State} {w : Word32} (hf : Fetches s w) (a : Word) : step s ≠ .fault (.stuck a) := by
  cases hd : decodeWord w with
  | error e =>
    by_cases ho : opcodeField w = majorOpcode
    · rw [step_of_decode_error hf hd ho]; simp
    · rw [step_of_foreign hf ho]; simp
  | ok i =>
    rw [Proofs.stepRunsTheDecodedInstruction s w i hf hd]
    cases ha : available s.cfg i.mnemonic with
    | true => obtain ⟨u, -, he⟩ := exec_available ha; rw [he]; simp
    | false => rw [exec_unavailable ha]; simp

end Sys2Proof.Machine

namespace Sys2Proof.Proofs

open Sys2Proof.Machine

/-- Settles O14: no field of the reset state has a bit above `XLEN`, and `pc` stands at the end of the empty text. -/
theorem resetHasTheInvariant : Obligations.ResetHasTheInvariant where
  config  := by decide
  slot0   := rfl
  widths  := fun _ => rfl
  pcWidth := rfl
  start   := rfl
  aligned := rfl
  fits    := Nat.zero_le _
  inText  := ⟨0, le_rfl, rfl⟩

/-- Settles O15: a launch that is not refused is admissible, and its initial state has the invariant. -/
theorem launchHasTheInvariant : Obligations.LaunchHasTheInvariant := by
  intro l s h
  obtain ⟨hwf, rfl⟩ := launch_next h
  exact launchState_inv hwf

/-- Settles O16: the invariant puts `pc` at a word of the text, which the step fetches, or at its end, where the run is over. -/
theorem invariantStatesAreNeverStuck : Obligations.InvariantStatesAreNeverStuck := by
  intro s hs a
  obtain ⟨k, hk⟩ := hs.exists_at
  rcases lt_or_eq_of_le hk.le with hlt | hend
  · exact step_ne_stuck_of_fetches (hk.fetches hs (List.getElem?_eq_getElem hlt)) a
  · rw [step_runOver (hk.runOver hs hend)]; simp

/-- Settles O22: the run starts at place 0 and after `k` steps stands at place `k`, which is a word of the text or its end. -/
theorem runOfNWordsEndsAfterNSteps : Obligations.RunOfNWordsEndsAfterNSteps := by
  intro s hs hpc hw k t h
  have h0 : s.At 0 := ⟨Nat.zero_le _, by rw [hw, State.pcValue, hpc, hs.start]; rfl⟩
  obtain ⟨ht, hk, hcfg, hprog, hstart⟩ := runSteps_at hs h0 h
  rw [Nat.zero_add] at hk
  refine ⟨hprog ▸ hk.le, by rw [hk.pcValue_eq, hcfg, hstart], fun hlt => ?_, fun hend => ?_⟩
  · exact hk.fetches ht (by rw [hprog, List.getElem?_eq_getElem hlt])
  · exact step_runOver (hk.runOver ht (by rw [hprog, hend]))

/-- Settles O23: the two conditions of R211 and that of R7 are those of `launch`, and every register of the initial state holds
its start value. -/
theorem launchStartsOrRefuses : Obligations.LaunchStartsOrRefuses := by
  refine fun l => ⟨fun hbad => ?_, fun ha hf hc => ?_⟩
  · refine launch_refused (Bool.eq_false_iff.mpr fun hwf => ?_)
    obtain ⟨-, ha, hf⟩ := (launch_wf_iff l).mp hwf
    omega
  · refine ⟨launchState l, launch_of_wf ((launch_wf_iff l).mpr ⟨hc, ha, hf⟩), rfl, rfl, fit_fit _ _, rfl, fit_fit _ _,
      readReg_zero _, fun r v hr hv => ?_⟩
    rw [launchState_readReg, startReg_of_lookup hr hv]

/-- Settles O24: the registers are 32 zeros, and `pc` stands at the end of the empty text. -/
theorem resetValues : Obligations.ResetValues := by
  have hread : ∀ r, State.reset.readReg r = 0#64 := by decide
  exact ⟨hread 0#5, hread, rfl, rfl, rfl, rfl, step_runOver rfl⟩

end Sys2Proof.Proofs
end

section
/-!
PROOFS. The statements of 41_variant1.md and 42_variant2.md about two results at once: the two substitutions of Variant 1 undo each
other, and the results of Variant 2 are symmetric under byte reversal.
-/

namespace Sys2Proof.Machine

open Sys2Proof.Statements

theorem byte_inReg (w : Word32) {i : Nat} (hi : i < 4) : byte (inReg w) i = byte w i := byte_setWidth w hi

/-! ### Variant 1 -/

/-- A substitution of the four low bytes is undone by that of the inverse (R111). -/
theorem subLow_subLow {f g : Byte → Byte} (hgf : ∀ x, g (f x) = x) (v : Word) :
    subLow g (inReg (subLow f v)) = word v 0 := by
  calc subLow g (inReg (subLow f v))
      = wordOf (byte (word v 0)) := wordOf_congr fun i hi => by
        rw [byte_inReg _ hi, subLow, byte_wordOf _ hi, hgf, byte_low v hi]
    _ = word v 0 := wordOf_byte _

section
variable {s t u : State} {rd rd' rs1 : Reg}

theorem exec_v1Enc_wrote (h : exec (.v1Enc rd rs1) s = .next t) :
    Wrote s t rd (inReg (subLow aesSbox (s.readReg rs1))) := by
  rw [exec_v1Enc (exec_next h).1] at h
  cases h
  exact writeZext_wrote s rd _

theorem exec_v1Dec_wrote (h : exec (.v1Dec rd rs1) s = .next t) :
    Wrote s t rd (inReg (subLow invAesSbox (s.readReg rs1))) := by
  rw [exec_v1Dec (exec_next h).1] at h
  cases h
  exact writeZext_wrote s rd _

/-- One Variant 1 substitution on the result of its inverse leaves the zero-extended low word (R111). -/
theorem subLow_roundTrip {f g : Byte → Byte} (hgf : ∀ x, g (f x) = x) (hrd : rd ≠ 0#5) (hrd' : rd' ≠ 0#5)
    (h : Wrote s t rd (inReg (subLow f (s.readReg rs1)))) (h' : Wrote t u rd' (inReg (subLow g (t.readReg rd)))) :
    u.readReg rd' = inReg (word (s.readReg rs1) 0) := by
  rw [h'.dest, if_neg hrd', h.dest, if_neg hrd, subLow_subLow hgf]

end

/-! ### Variant 2 -/

theorem byte_rev32 (w : Word32) {i : Nat} (hi : i < 4) : byte (rev32 w) i = byte w (3 - i) := by
  match i, hi with
  | 0, _ | 1, _ | 2, _ | 3, _ => simp [rev32]

/-- Byte `i` of the reversed low word of a register, held in a register (R124). -/
theorem byte_inReg_rev32 (v : Word) {i : Nat} (hi : i < 4) : byte (inReg (rev32 (word v 0))) i = byte v (3 - i) := by
  rw [byte_inReg _ hi, byte_rev32 _ hi, byte_low v (by omega)]

section
variable (a b : Word)

theorem rev32_subPair (sb : Byte → Byte) :
    rev32 (subPair sb a b) = subPair sb (inReg (rev32 (word b 0))) (inReg (rev32 (word a 0))) := by
  simp [subPair, byte_inReg_rev32]

theorem rev32_joinPair : rev32 (joinPair a b) = joinPair (inReg (rev32 (word b 0))) (inReg (rev32 (word a 0))) := by
  simp [joinPair, byte_inReg_rev32]

end

end Sys2Proof.Machine

namespace Sys2Proof.Proofs

open Sys2Proof.Machine

/-- Settles O27: AESSBox and InvAESSBox undo each other on every byte. -/
theorem v1DecAndV1EncUndoEachOther : Obligations.V1DecAndV1EncUndoEachOther := by
  rintro rd rs1 rd' s t u hrd hrd' (⟨henc, hdec⟩ | ⟨hdec, henc⟩)
  · exact subLow_roundTrip invAesSbox_aesSbox hrd hrd' (exec_v1Enc_wrote henc) (exec_v1Dec_wrote hdec)
  · exact subLow_roundTrip aesSbox_invAesSbox hrd hrd' (exec_v1Dec_wrote hdec) (exec_v1Enc_wrote henc)

/-- Settles O32: reversing and exchanging the operands of a substitution reverses its result; it reverses the column of a mix,
which the other row order reverses again. -/
theorem v2IsSymmetricUnderByteReversal : Obligations.V2IsSymmetricUnderByteReversal := by
  refine fun a b => ⟨rev32_subPair a b, fun mix => ?_⟩
  rw [mixPair, mixPair, ← rev32_joinPair, rev32_rev32]

end Sys2Proof.Proofs
end

section
/-!
PROOFS. The sums of columns of 40_aes_primitives.md and 43_variant3.md: MixCol is the exclusive-or of four rotated columns, which a
chain of four Variant 3 instructions adds up one by one; the results without an S-box are linear.
-/

namespace Sys2Proof.Machine

open Sys2Proof.Statements

/-! ### The sum of four rotated columns (R96) -/

/-- The exclusive-or over `b` of the column of `f b`, rotated to start at row `b`. -/
def columnSum (col : Byte → Word32) (f : Nat → Byte) : Word32 :=
  rotl32 (col (f 0)) (8 * 0) ^^^ rotl32 (col (f 1)) (8 * 1) ^^^ rotl32 (col (f 2)) (8 * 2) ^^^ rotl32 (col (f 3)) (8 * 3)

theorem byte_columnSum (col : Byte → Word32) (f : Nat → Byte) {r : Nat} (hr : r < 4) :
    byte (columnSum col f) r = byte (col (f 0)) ((r + 4 - 0) % 4) ^^^ byte (col (f 1)) ((r + 4 - 1) % 4) ^^^
      byte (col (f 2)) ((r + 4 - 2) % 4) ^^^ byte (col (f 3)) ((r + 4 - 3) % 4) := by
  rw [columnSum, byte_xor, byte_xor, byte_xor, byte_rotl32 _ (by decide) hr, byte_rotl32 _ (by decide) hr,
    byte_rotl32 _ (by decide) hr, byte_rotl32 _ (by decide) hr]

/-- A column of products with `c0 c3 c2 c1` sums to the circulant matrix whose first column that is. -/
theorem byte_columnSum_circulant {col : Byte → Word32} {c0 c1 c2 c3 : Byte}
    (hcol : ∀ (x : Byte) {j : Nat}, j < 4 → byte (col x) j = gfmul x ([c0, c3, c2, c1].getD j 0#8)) (w : Word32)
    {r : Nat} (hr : r < 4) : byte (columnSum col (byte w)) r = circulantRow c0 c1 c2 c3 w r := by
  have hmod (n : Nat) : n % 4 < 4 := Nat.mod_lt n (by decide)
  simp only [byte_columnSum _ _ hr, hcol _ (hmod _), circulantRow]
  match r, hr with
  | 0, _ => rfl
  | 1, _ | 2, _ | 3, _ =>
    simp only [Nat.reduceAdd, Nat.reduceSub, Nat.reduceMod, List.getD_cons_zero, List.getD_cons_succ]
    ac_rfl

theorem mixCol_eq_columnSum (w : Word32) : mixCol w = columnSum encColumn (byte w) :=
  eq_of_byte_eq 4 rfl fun _ hr => by
    rw [byte_mixCol w hr, byte_columnSum_circulant byte_encColumn w hr]

theorem invMixCol_eq_columnSum (w : Word32) : invMixCol w = columnSum decColumn (byte w) :=
  eq_of_byte_eq 4 rfl fun _ hr => by
    rw [byte_invMixCol w hr, byte_columnSum_circulant byte_decColumn w hr]

/-- Plain columns put each byte in its own row. -/
theorem eq_columnSum_plainColumn (w : Word32) : w = columnSum plainColumn (byte w) :=
  eq_of_byte_eq 4 rfl fun r hr => by
    simp only [byte_columnSum _ _ hr, byte_plainColumn _ (Nat.mod_lt _ (show 0 < 4 by decide))]
    match r, hr with
    | 0, _ | 1, _ | 2, _ | 3, _ => simp

theorem columnSum_congr (col : Byte → Word32) {f g : Nat → Byte} (h : ∀ b < 4, f b = g b) :
    columnSum col f = columnSum col g := by
  simp [columnSum, h 0, h 1, h 2, h 3]

/-! ### A chain of Variant 3 instructions (R131, R134, R137) -/

/-- The hardware has `i`, and `i` is the shared body of Variant 3 on the byte `bs` of `src`, accumulating in `acc`. -/
def Accumulates (c : Config) (sb : Byte → Byte) (col : Byte → Word32) (acc src : Reg) (bs : ByteSel) (i : Instr) : Prop :=
  ∀ s : State, s.cfg = c →
    exec i s = .next (s.writeW32 acc (selectResult sb col bs (s.readReg src) (s.readReg acc))).advancePc

/-- One instruction of a chain exclusive-ors its rotated column into the accumulator's low word. -/
theorem Accumulates.step {s : State} {sb : Byte → Byte} {col : Byte → Word32} {acc src : Reg} {bs : ByteSel} {i : Instr}
    (h : Accumulates s.cfg sb col acc src bs i) (hacc : acc ≠ 0#5) :
    ∃ t, exec i s = .next t ∧ OnlyReg s t acc ∧ word (t.readReg acc) 0 =
      word (s.readReg acc) 0 ^^^ rotl32 (col (sb (byte (s.readReg src) bs.toNat))) (8 * bs.toNat) := by
  refine ⟨_, h s rfl, writeW32_onlyReg _ _ _, ?_⟩
  rw [(writeW32_wrote s acc _).low, if_neg hacc, selectResult, BitVec.xor_comm]

/-- A chain of such instructions, each on a source other than the accumulator, completes and adds up their columns. -/
theorem execAll_accumulates {sb : Byte → Byte} {col : Byte → Word32} {acc : Reg} (hacc : acc ≠ 0#5) {src : Nat → Reg}
    {i : Nat → Instr} (l : List Nat) (hsrc : ∀ b ∈ l, src b ≠ acc) : ∀ s : State,
    (∀ b ∈ l, Accumulates s.cfg sb col acc (src b) (BitVec.ofNat 2 b) (i b)) →
    ∃ t, execAll (l.map i) s = .next t ∧ word (t.readReg acc) 0 = l.foldl (fun w b =>
      w ^^^ rotl32 (col (sb (byte (s.readReg (src b)) (BitVec.ofNat 2 b).toNat))) (8 * (BitVec.ofNat 2 b).toNat))
      (word (s.readReg acc) 0) := by
  induction l with
  | nil => exact fun s _ => ⟨s, rfl, rfl⟩
  | cons b l ih =>
    intro s hi
    simp only [List.forall_mem_cons] at hsrc hi
    obtain ⟨hb, hl⟩ := hi
    obtain ⟨u, hu, honly, hword⟩ := hb.step hacc
    obtain ⟨t, ht, hsum⟩ := ih hsrc.2 u (honly.cfg ▸ hl)
    refine ⟨t, by rw [List.map_cons, execAll, hu]; exact ht, ?_⟩
    rw [hsum, List.foldl_cons, hword]
    refine List.foldl_ext _ _ _ fun w k hk => ?_
    rw [honly.others _ (hsrc.2 k hk)]

/-- Four of them, on the bytes 0 to 3, add the column sum of those bytes (R137). -/
theorem execAll_four {s : State} {sb : Byte → Byte} {col : Byte → Word32} {acc : Reg} (hacc : acc ≠ 0#5) {src : Nat → Reg}
    {i : Nat → Instr} (hsrc : ∀ b < 4, src b ≠ acc)
    (hi : ∀ b, Accumulates s.cfg sb col acc (src b) (BitVec.ofNat 2 b) (i b)) :
    ∃ t, execAll ((List.range 4).map i) s = .next t ∧ word (t.readReg acc) 0 =
      word (s.readReg acc) 0 ^^^ columnSum col fun b => sb (byte (s.readReg (src b)) b) := by
  obtain ⟨t, ht, hword⟩ := execAll_accumulates hacc (List.range 4) (fun b hb => hsrc b (List.mem_range.mp hb)) s
    fun b _ => hi b
  refine ⟨t, ht, hword.trans ?_⟩
  simp only [columnSum, ← BitVec.xor_assoc]
  rfl

/-! ### Linearity (R102) -/

theorem circulantRow_xor (c0 c1 c2 c3 : Byte) (v w : Word32) (r : Nat) :
    circulantRow c0 c1 c2 c3 (v ^^^ w) r = circulantRow c0 c1 c2 c3 v r ^^^ circulantRow c0 c1 c2 c3 w r := by
  simp only [circulantRow, byte_xor, gfmul_xor]
  ac_rfl

theorem mixCol_xor (v w : Word32) : mixCol (v ^^^ w) = mixCol v ^^^ mixCol w :=
  eq_of_byte_eq 4 rfl fun _ hr => by
    rw [byte_xor, byte_mixCol _ hr, byte_mixCol _ hr, byte_mixCol _ hr, circulantRow_xor]

theorem invMixCol_xor (v w : Word32) : invMixCol (v ^^^ w) = invMixCol v ^^^ invMixCol w :=
  eq_of_byte_eq 4 rfl fun _ hr => by
    rw [byte_xor, byte_invMixCol _ hr, byte_invMixCol _ hr, byte_invMixCol _ hr, circulantRow_xor]

theorem rev32_xor (v w : Word32) : rev32 (v ^^^ w) = rev32 v ^^^ rev32 w :=
  eq_of_byte_eq 4 rfl fun _ hr => by
    rw [byte_xor, byte_rev32 _ hr, byte_rev32 _ hr, byte_rev32 _ hr, byte_xor]

theorem joinPair_xor (a a' b b' : Word) : joinPair (a ^^^ a') (b ^^^ b') = joinPair a b ^^^ joinPair a' b' := by
  apply eq_of_bytes4 <;> simp [joinPair]

theorem mixPair_xor {mix : Word32 → Word32} (hmix : ∀ v w, mix (v ^^^ w) = mix v ^^^ mix w) (row0 : MixRow0)
    (a a' b b' : Word) : mixPair row0 mix (a ^^^ a') (b ^^^ b') = mixPair row0 mix a b ^^^ mixPair row0 mix a' b' := by
  cases row0 with
  | t0 => simp only [mixPair, joinPair_xor, hmix]
  | t3 => simp only [mixPair, joinPair_xor, rev32_xor, hmix]

/-- A column of products is linear in its byte (R94), and so is its rotation on a zero accumulator. -/
theorem selectResult_id_xor {col : Byte → Word32} {coefficients : List Byte}
    (hcol : ∀ (x : Byte) {j : Nat}, j < 4 → byte (col x) j = gfmul x (coefficients.getD j 0#8)) (bs : ByteSel)
    (a a' : Word) : selectResult id col bs (a ^^^ a') 0#64 =
      selectResult id col bs a 0#64 ^^^ selectResult id col bs a' 0#64 := by
  have hzero : ∀ i < 4, byte (0#64 : Word) i = 0#8 := by decide
  refine eq_of_byte_eq 4 rfl fun i hi => ?_
  simp only [byte_xor, byte_selectResult _ _ _ _ _ hi, hzero i hi, BitVec.zero_xor, id_eq,
    hcol _ (Nat.mod_lt _ (show 0 < 4 by decide)), gfmul_xor]

theorem imixWords_xor (a a' : Word) : imixWords (a ^^^ a') = imixWords a ^^^ imixWords a' := by
  refine eq_of_word_eq 2 rfl fun c hc => ?_
  rw [word_xor, word_imixWords _ hc, word_imixWords _ hc, word_imixWords _ hc, word_xor, invMixCol_xor]

/-! ### Substitution, then mix (R132, R135) -/

theorem selectResult_id_plain (sb : Byte → Byte) (col : Byte → Word32) (bs : ByteSel) (a b : Word) :
    selectResult id col bs (inReg (selectResult sb plainColumn bs a 0#64)) b = selectResult sb col bs a b := by
  have hzero : ∀ i < 4, byte (0#64 : Word) i = 0#8 := by decide
  have hbyte : byte (selectResult sb plainColumn bs a 0#64) bs.toNat = sb (byte a bs.toNat) := by
    rw [selectResult_plainColumn_inPlace sb bs a 0#64 _ bs.isLt, if_pos rfl, hzero _ bs.isLt, BitVec.zero_xor]
  rw [← byte_inReg _ bs.isLt] at hbyte
  exact congrArg (fun x => rotl32 (col x) (8 * bs.toNat) ^^^ word b 0) hbyte

end Sys2Proof.Machine

namespace Sys2Proof.Proofs

open Sys2Proof.Machine

/-- Settles O54: both are circulant matrices, whose columns are one column rotated. -/
theorem mixColIsTheSumOfContributions : Obligations.MixColIsTheSumOfContributions :=
  fun w => ⟨mixCol_eq_columnSum w, invMixCol_eq_columnSum w⟩

/-- Settles O56: each result is a product with constants of GFMUL, which is linear. -/
theorem resultsWithoutSboxAreLinear : Obligations.ResultsWithoutSboxAreLinear :=
  ⟨fun row0 a a' b b' => ⟨mixPair_xor mixCol_xor row0 a a' b b', mixPair_xor invMixCol_xor row0 a a' b b'⟩,
    fun bs a a' => ⟨selectResult_id_xor byte_encColumn bs a a', selectResult_id_xor byte_decColumn bs a a'⟩,
    imixWords_xor⟩

/-- Settles O39: on a zero accumulator `encs` and `decs` leave the substituted byte at its place, where the mix takes it. -/
theorem v3FusedIsSubstituteThenMix : Obligations.V3FusedIsSubstituteThenMix :=
  fun bs a b => ⟨(selectResult_id_plain aesSbox encColumn bs a b).symm,
    (selectResult_id_plain invAesSbox decColumn bs a b).symm⟩

/-- Settles O40: the chain adds the column sum of the source's four bytes, which is the mix of its low word. -/
theorem fourContributionsMixTheColumn : Obligations.FourContributionsMixTheColumn := by
  intro acc src s hacc hsrc
  have hlow (col : Byte → Word32) :
      columnSum col (fun b => id (byte (s.readReg src) b)) = columnSum col (byte (word (s.readReg src) 0)) :=
    columnSum_congr col fun b hb => (byte_low _ hb).symm
  refine ⟨fun h => ?_, fun h => ?_⟩
  · obtain ⟨t, ht, hword⟩ := execAll_four (src := fun _ => src) hacc (fun _ _ => hsrc)
      (i := fun b => .v3Encm acc src acc (BitVec.ofNat 2 b)) fun b u hu =>
        exec_v3Encm (hu ▸ available_of_not_lacks h)
    exact ⟨t, ht, by rw [hword, hlow, mixCol_eq_columnSum, BitVec.xor_comm]⟩
  · obtain ⟨t, ht, hword⟩ := execAll_four (src := fun _ => src) hacc (fun _ _ => hsrc)
      (i := fun b => .v3Decm acc src acc (BitVec.ofNat 2 b)) fun b u hu =>
        exec_v3Decm (hu ▸ available_of_not_lacks h)
    exact ⟨t, ht, by rw [hword, hlow, invMixCol_eq_columnSum, BitVec.xor_comm]⟩

end Sys2Proof.Proofs
end

section
/-!
PROOFS. The statements of 44_variant4.md and 42_variant2.md, 43_variant3.md about whole rounds: the halves of a Variant 4 round are
exchanged with its operands, decryption undoes encryption, and the rounds of Variants 2 and 3 are that of Variant 4.
-/

namespace Sys2Proof.Machine

open Sys2Proof.Statements

/-! ### The exchanged operands (R153) -/

/-- Exchanging the two registers moves every byte of the state by two columns (R160). -/
theorem stateByte_add_eight (a b : Word) {i : Nat} (hi : i < 16) : stateByte a b ((i + 8) % 16) = stateByte b a i := by
  unfold stateByte
  by_cases h : i < 8
  · have hsum : (i + 8) % 16 = i + 8 := by omega
    rw [hsum, if_pos h, if_neg (by omega), Nat.add_sub_cancel]
  · have hsum : (i + 8) % 16 = i - 8 := by omega
    rw [hsum, if_neg h, if_pos (by omega)]

theorem encryptColumn_swap (a b : Word) (c : Nat) : encryptColumn a b (c + 2) = encryptColumn b a c :=
  wordOf_congr fun r hr => by
    have hindex : r + 4 * ((c + 2 + r) % 4) = (r + 4 * ((c + r) % 4) + 8) % 16 := by omega
    rw [hindex, stateByte_add_eight a b (by omega)]

theorem decryptColumn_swap (a b : Word) (c : Nat) : decryptColumn a b (c + 2) = decryptColumn b a c :=
  wordOf_congr fun r hr => by
    have hindex : r + 4 * ((c + 2 + 4 - r) % 4) = (r + 4 * ((c + 4 - r) % 4) + 8) % 16 := by omega
    rw [hindex, stateByte_add_eight a b (by omega)]

theorem word_v4Round_swap (a b : Word) (dec mix : Bool) {c : Nat} (hc : c < 2) :
    word (v4Round a b dec mix) (c + 2) = word (v4Round b a dec mix) c := by
  have hc4 : c < 4 := by omega
  have hc4' : c + 2 < 4 := by omega
  match dec, mix with
  | false, false => rw [word_v4Round_encs _ _ hc4', word_v4Round_encs _ _ hc4, encryptColumn_swap]
  | false, true => rw [word_v4Round_encsm _ _ hc4', word_v4Round_encsm _ _ hc4, encryptColumn_swap]
  | true, false => rw [word_v4Round_decs _ _ hc4', word_v4Round_decs _ _ hc4, decryptColumn_swap]
  | true, true => rw [word_v4Round_decsm _ _ hc4', word_v4Round_decsm _ _ hc4, decryptColumn_swap]

/-! ### Decryption undoes encryption (R151, R158) -/

/-- A substitution of every byte commutes with a permutation of the bytes. -/
theorem subBytes_shiftRows (sb : Byte → Byte) (t : Block) : subBytes sb (shiftRows t) = shiftRows (subBytes sb t) :=
  eq_of_byte_eq 16 rfl fun i hi => by
    rw [byte_subBytes _ _ hi, byte_shiftRows _ hi, byte_shiftRows _ hi, byte_subBytes _ _ (shiftIndex_lt i)]

theorem subBytes_invAesSbox_aesSbox (t : Block) : subBytes invAesSbox (subBytes aesSbox t) = t :=
  eq_of_byte_eq 16 rfl fun i hi => by rw [byte_subBytes _ _ hi, byte_subBytes _ _ hi, invAesSbox_aesSbox]

/-- `decs` of the two halves of `encs` is the state `encs` started from (R158). -/
theorem v4Round_decs_encs (a b : Word) :
    v4Round (lowHalf (v4Round a b false false)) (highHalf (v4Round a b false false)) true false = stateOf a b := by
  have hencs : v4Round a b false false = shiftRows (subBytes aesSbox (stateOf a b)) := rfl
  calc v4Round (lowHalf (v4Round a b false false)) (highHalf (v4Round a b false false)) true false
      = invShiftRows (subBytes invAesSbox (v4Round a b false false)) :=
        congrArg (fun t => invShiftRows (subBytes invAesSbox t)) (stateOf_halves _)
    _ = stateOf a b := by rw [hencs, subBytes_shiftRows, invShiftRows_shiftRows, subBytes_invAesSbox_aesSbox]

theorem imixWords_lowHalf_mixColumns (t : Block) : imixWords (lowHalf (mixColumns t)) = lowHalf t :=
  eq_of_word_eq 2 rfl fun c hc => by
    rw [word_imixWords _ hc, word_lowHalf _ hc, word_lowHalf _ hc, word_mixColumns _ (by omega), invMixCol_mixCol]

theorem imixWords_highHalf_mixColumns (t : Block) : imixWords (highHalf (mixColumns t)) = highHalf t :=
  eq_of_word_eq 2 rfl fun c hc => by
    rw [word_imixWords _ hc, word_highHalf _ hc, word_highHalf _ hc, word_mixColumns _ (by omega), invMixCol_mixCol]

/-! ### The round of four column words (R125, R137) -/

/-- Byte `r` of column `k` of the state held in four words, two to a register (R90, R160). -/
theorem stateByte_words (w : Nat → Word32) {r k : Nat} (hr : r < 4) (hk : k < 4) :
    stateByte (cat2w (w 1) (w 0)) (cat2w (w 3) (w 2)) (r + 4 * k) = byte (w k) r := by
  rw [← byte_stateOf _ _ (by omega), Nat.add_comm, ← byte_word _ _ hr]
  congr 1
  match k, hk with
  | 0, _ => rw [← word_lowHalf _ (by decide), lowHalf_stateOf, word_cat2w_0]
  | 1, _ => rw [← word_lowHalf _ (by decide), lowHalf_stateOf, word_cat2w_1]
  | 2, _ => rw [← word_highHalf _ (by decide), highHalf_stateOf, word_cat2w_0]
  | 3, _ => rw [← word_highHalf _ (by decide), highHalf_stateOf, word_cat2w_1]

/-- The column that the byte in row `r` of column `c` comes from: `c + r` to encrypt, `c - r` to decrypt (R98, R99). -/
def sourceColumn (dec : Bool) (c r : Nat) : Nat := (if dec then c + 4 - r else c + r) % 4

/-- The S-box of a direction (R91, R92). -/
def roundSbox (dec : Bool) : Byte → Byte := if dec then invAesSbox else aesSbox

/-- The column mix of a round, none for a last one (R96, R97). -/
def roundMix : Bool → Bool → Word32 → Word32
  | _, false => id
  | false, true => mixCol
  | true, true => invMixCol

/-- The column of a Variant 3 instruction that substitutes (R130, R132, R133, R135). -/
def roundColumn : Bool → Bool → Byte → Word32
  | _, false => plainColumn
  | false, true => encColumn
  | true, true => decColumn

theorem roundMix_eq_columnSum (dec mix : Bool) (w : Word32) : roundMix dec mix w = columnSum (roundColumn dec mix) (byte w) := by
  match dec, mix with
  | false, false | true, false => exact eq_columnSum_plainColumn w
  | false, true => exact mixCol_eq_columnSum w
  | true, true => exact invMixCol_eq_columnSum w

/-- Column `c` of a round of the state in four words: the substituted bytes of the source columns, mixed. -/
theorem word_v4Round_words (w : Nat → Word32) (dec mix : Bool) {c : Nat} (hc : c < 4) :
    word (v4Round (cat2w (w 1) (w 0)) (cat2w (w 3) (w 2)) dec mix) c =
      roundMix dec mix (wordOf fun r => roundSbox dec (byte (w (sourceColumn dec c r)) r)) := by
  have henc : encryptColumn (cat2w (w 1) (w 0)) (cat2w (w 3) (w 2)) c =
      wordOf fun r => roundSbox false (byte (w (sourceColumn false c r)) r) :=
    wordOf_congr fun r hr => congrArg aesSbox (stateByte_words w hr (Nat.mod_lt _ (by decide)))
  have hdec : decryptColumn (cat2w (w 1) (w 0)) (cat2w (w 3) (w 2)) c =
      wordOf fun r => roundSbox true (byte (w (sourceColumn true c r)) r) :=
    wordOf_congr fun r hr => congrArg invAesSbox (stateByte_words w hr (Nat.mod_lt _ (by decide)))
  match dec, mix with
  | false, false => exact (word_v4Round_encs _ _ hc).trans henc
  | false, true => exact (word_v4Round_encsm _ _ hc).trans (congrArg mixCol henc)
  | true, false => exact (word_v4Round_decs _ _ hc).trans hdec
  | true, true => exact (word_v4Round_decsm _ _ hc).trans (congrArg invMixCol hdec)

/-! ### Variant 3 (R137) -/

/-- Each of the four forms with an S-box accumulates the column of its round (R130, R132, R133, R135). -/
theorem selectInstr_accumulates {c : Config} {dec mix : Bool} {acc : Reg}
    (h : available c (selectInstr dec mix acc acc acc 0#2).mnemonic = true) (src : Reg) (bs : ByteSel) :
    Accumulates c (roundSbox dec) (roundColumn dec mix) acc src bs (selectInstr dec mix acc src acc bs) := by
  rintro s rfl
  match dec, mix with
  | false, false => exact exec_v3Encs h
  | false, true => exact exec_v3Encsm h
  | true, false => exact exec_v3Decs h
  | true, true => exact exec_v3Decsm h

/-! ### Variant 2 (R125) -/

/-- The column that a mix takes from two results of a substitution: row `r` of the `r`-th operand. -/
theorem mixPair_subPair (mix : Word32 → Word32) (sb : Byte → Byte) (w : Nat → Word32) :
    mixPair .t0 mix (inReg (subPair sb (inReg (w 0)) (inReg (w 1)))) (inReg (subPair sb (inReg (w 2)) (inReg (w 3)))) =
      mix (wordOf fun r => sb (byte (w r) r)) := by
  rw [mixPair_of_t0 mix _ _ rfl]
  congr 1
  simp [subPair, byte_inReg, wordOf]

/-- A round of Variant 2 on four words is that of Variant 4: the operands of a column are its source columns. -/
theorem mixPair_subPair_eq_v4Round (w : Nat → Word32) (dec : Bool) {c : Nat} (hc : c < 4) :
    mixPair .t0 (roundMix dec true)
        (inReg (subPair (roundSbox dec) (inReg (w (sourceColumn dec c 0))) (inReg (w (sourceColumn dec c 1)))))
        (inReg (subPair (roundSbox dec) (inReg (w (sourceColumn dec c 2))) (inReg (w (sourceColumn dec c 3))))) =
      word (v4Round (cat2w (w 1) (w 0)) (cat2w (w 3) (w 2)) dec true) c := by
  rw [word_v4Round_words w dec true hc]
  exact mixPair_subPair (roundMix dec true) (roundSbox dec) fun r => w (sourceColumn dec c r)

end Sys2Proof.Machine

namespace Sys2Proof.Proofs

open Sys2Proof.Machine Sys2Proof.Statements

/-- Settles O47: the high half is columns 2 and 3, which are columns 0 and 1 of the round of the exchanged operands. -/
theorem highHalfIsTheSwappedLowHalf : Obligations.HighHalfIsTheSwappedLowHalf :=
  fun a b dec mix => eq_of_word_eq 2 rfl fun c hc => by
    rw [word_highHalf _ hc, word_lowHalf _ hc, word_v4Round_swap a b dec mix hc]

/-- Settles O48: the state of both results is that of the operands. -/
theorem decsUndoesEncs : Obligations.DecsUndoesEncs := fun a b => by
  rw [v4Round_decs_encs]
  exact ⟨lowHalf_stateOf a b, highHalf_stateOf a b⟩

/-- Settles O49: `imix` leaves the results of `encs`, which `decs` undoes. -/
theorem imixThenDecsUndoesEncsm : Obligations.ImixThenDecsUndoesEncsm := fun a b => by
  have hround : v4Round a b false true = mixColumns (v4Round a b false false) := rfl
  rw [hround, imixWords_lowHalf_mixColumns, imixWords_highHalf_mixColumns]
  exact decsUndoesEncs a b

/-- Settles O57: the chain adds the column sum of the substituted bytes of the source columns, which is the round's column. -/
theorem variant3RoundIsTheVariant4Round : Obligations.Variant3RoundIsTheVariant4Round := by
  intro dec mix col acc s c hc hacc hcol hl
  obtain ⟨t, ht, hword⟩ := execAll_four (src := fun b => col (sourceColumn dec c b)) hacc
    (fun b _ => hcol _ (Nat.mod_lt _ (by decide)))
    fun b => selectInstr_accumulates (available_of_not_lacks hl) (col (sourceColumn dec c b)) (BitVec.ofNat 2 b)
  refine ⟨t, ht, hword.trans (congrArg _ ?_)⟩
  rw [word_v4Round_words (fun k => word (s.readReg (col k)) 0) dec mix hc, roundMix_eq_columnSum]
  refine columnSum_congr _ fun b hb => ?_
  rw [byte_wordOf _ hb, byte_low _ hb]

/-- Settles O58: each pairing of the recipe takes row `r` from the source column of row `r`. -/
theorem variant2RoundIsTheVariant4Round : Obligations.Variant2RoundIsTheVariant4Round := by
  intro s0 s1 s2 s3
  have hround (dec : Bool) {c : Nat} (hc : c < 4) :=
    mixPair_subPair_eq_v4Round (fun k => [s0, s1, s2, s3].getD k 0#32) dec hc
  exact ⟨⟨hround false (c := 0) (by decide), hround false (c := 1) (by decide), hround false (c := 2) (by decide),
      hround false (c := 3) (by decide)⟩,
    hround true (c := 0) (by decide), hround true (c := 1) (by decide), hround true (c := 2) (by decide),
    hround true (c := 3) (by decide)⟩

/-- Settles O3: the seven words are the encodings of the seven instructions. -/
theorem specWordsDecode : Obligations.SpecWordsDecode :=
  ⟨decodeWord_encode (.v1Enc 10#5 11#5), decodeWord_encode (.v1Dec 10#5 11#5), decodeWord_encode (.v2MixDec 10#5 11#5 12#5),
    decodeWord_encode (.v3Encm 10#5 11#5 12#5 2#2), decodeWord_encode (.v3Encsm 31#5 31#5 31#5 3#2),
    decodeWord_encode (.v4Imix 1#5 2#5), decodeWord_encode (.v4DecsHi 31#5 31#5 31#5)⟩

end Sys2Proof.Proofs
end
